-- ==== Sys2Proof/Word.lean ====
section
/-! DEFINITION. The word types of the three blocks. -/

namespace Sys2Proof

/-- A 4-bit nibble code (spec/30_encoding.md R60). -/
abbrev Nibble := BitVec 4

/-- One byte of the input buffer or of the container image (20_memory.md R40, R44). -/
abbrev Byte := BitVec 8

/-- A 16-bit two's-complement output sample (30_encoding.md R62). -/
abbrev Sample := BitVec 16

/-- The 12-bit two's-complement predictor (10_state.md R22). -/
abbrev Predictor := BitVec 12

/-- A 32-bit port or register: buf_len, rd_addr, sample_rate (30_encoding.md R72, R73). -/
abbrev Word32 := BitVec 32

/-- A container image: bytes at offsets 0, 1, 2, … (20_memory.md R44). -/
abbrev Image := List Byte

end Sys2Proof
end

