-- ==== Sys2Proof/Config.lean ====
section
/-! DEFINITION. What the source fixes (00_scope.md R7) and the build parameters it leaves open (R8), with the spec's defaults. -/

namespace Sys2Proof

/-- P_CONTAINER_FORMAT (00_scope.md R8, decision D17): the one format the spec lays out. -/
inductive ContainerFormat
  | riffWavePcm
deriving DecidableEq, Repr

/-- The build parameters of 00_scope.md R8. A build fixes them; no run changes them (20_memory.md R58). -/
structure Params where
  /-- P_STEP_SIZE_TABLE: the 49-entry ROM of 10_state.md R26. -/
  stepSize : Vector Nat 49
  /-- P_INDEX_DELTA_TABLE: the 16-entry ROM of 10_state.md R28, addressed by the whole nibble. -/
  indexDelta : Vector Int 16
  /-- P_INIT_STEP_INDEX (10_state.md R30). -/
  initStepIndex : Fin 49
  /-- P_INIT_PREDICTED (10_state.md R30). -/
  initPredicted : Predictor
  /-- P_MAX_PAYLOAD_BYTES (42_stream_framer.md R126). -/
  maxPayloadBytes : Nat
  /-- P_CONTAINER_FORMAT (43_container_writer.md R146). -/
  containerFormat : ContainerFormat
  /-- P_INSTANCES (60_exceptions.md R185). -/
  instances : Nat
deriving DecidableEq, Repr

/-- What the spec requires of the parameters: positive step sizes (10_state.md R26), a positive payload bound whose
container still has exact 32-bit length fields (43_container_writer.md R149), at least one instance (R185). -/
def Params.valid (P : Params) : Bool :=
  P.stepSize.toList.all (fun s => 1 ≤ s) && decide (1 ≤ P.maxPayloadBytes) &&
    decide (36 + 4 * P.maxPayloadBytes ≤ 2 ^ 32 - 1) && decide (1 ≤ P.instances)

namespace Config

/-- The spec's default P_STEP_SIZE_TABLE (10_state.md R27; PRESUMED there, from general knowledge: log 1, unsafe). -/
def defaultStepSize : Vector Nat 49 :=
  #v[16, 17, 19, 21, 23, 25, 28, 31, 34, 37] ++
  #v[41, 45, 50, 55, 60, 66, 73, 80, 88, 97] ++
  #v[107, 118, 130, 143, 157, 173, 190, 209, 230, 253] ++
  #v[279, 307, 337, 371, 408, 449, 494, 544, 598, 658] ++
  #v[724, 796, 876, 963, 1060, 1166, 1282, 1411, 1552]

/-- The spec's default P_INDEX_DELTA_TABLE (10_state.md R29; PRESUMED there, from general knowledge: log 2, unsafe). -/
def defaultIndexDelta : Vector Int 16 :=
  #v[-1, -1, -1, -1, 2, 4, 6, 8, -1, -1, -1, -1, 2, 4, 6, 8]

/-- The build this model runs: the defaults of 00_scope.md R8 (logs 1 to 5). -/
def build : Params where
  stepSize := defaultStepSize
  indexDelta := defaultIndexDelta
  initStepIndex := 0
  initPredicted := 0#12
  maxPayloadBytes := 1073741814
  containerFormat := .riffWavePcm
  instances := 1

/-- HEADER_SIGNATURE, the characters `ZmAdpCm` as bytes (42_stream_framer.md R123; ASCII is PRESUMED there: log 6). -/
def headerSignature : Vector Byte 7 :=
  #v[0x5A#8, 0x6D#8, 0x41#8, 0x64#8, 0x70#8, 0x43#8, 0x6D#8]

/-- HEADER_LEN (00_scope.md R7): the payload offset in headered mode. -/
def headerLen : Nat := 32

/-- The reset value of SAMPLE_RATE (10_state.md R36). -/
def resetSampleRate : Word32 := 15625#32

/-- The largest legal SAMPLE_RATE (43_container_writer.md R143). -/
def maxSampleRate : Nat := 2 ^ 31 - 1

end Config

end Sys2Proof
end

