-- ==== Sys2Proof/Machine/State.lean ====
section
/-! DEFINITION. The state of the three blocks, of the byte source and the sink, and of the pins; faults and refusals; reset. -/

namespace Sys2Proof.Machine

/-- The framer's `phase` (10_state.md R34). -/
inductive Phase
  /-- 0: the high nibble of the byte at `cursor` is next. -/
  | high
  /-- 1: the low nibble of `cur_byte` is next. -/
  | low
deriving DecidableEq, Repr

/-- The framer's `mode` (10_state.md R34). -/
inductive Mode
  | raw
  | headered
deriving DecidableEq, Repr

/-- The codes of the `status` register (60_exceptions.md R171). Codes 6 and 7 are never written, so they have no name here. -/
inductive Status
  | none
  | ok
  | skippedEmpty
  | readFailure
  | partialDecode
  | writeFailure
deriving DecidableEq, Repr

/-- Where the framer stands in the file procedure of 42_stream_framer.md R134 (the stages of 70_reset_and_hazards.md R212).
Meaningful only while `busy` (log 7). -/
inductive Stage
  /-- Comparing signature byte `k`. -/
  | header (k : Fin 7)
  /-- Feeding the nibble at `cursor`, `phase`. -/
  | feed
  /-- The last nibble's sample is being appended (R130). -/
  | drain
  /-- `finish` is asserted to the writer (R130). -/
  | finish
  /-- Waiting for `w_done` (R130). -/
  | wait
deriving DecidableEq, Repr

/-- What the container_writer is doing (43_container_writer.md R150, R152; log 7). -/
inductive WriterStage
  | idle
  | staging
deriving DecidableEq, Repr

/-- The decoder's registers (10_state.md R20 to R22) and `out_valid` (R32), typed as the bounded ranges, as R24 asks. -/
structure Decoder where
  stepIndex : Fin 49
  predicted : Predictor
  outValid : Bool
deriving DecidableEq, Repr

/-- The stream_framer's registers (10_state.md R34, R35; the sampled `L` and `rd_err` of 42_stream_framer.md R120). -/
structure Framer where
  cursor : Nat
  phase : Phase
  payloadOffset : Nat
  mode : Mode
  busy : Bool
  status : Status
  curByte : Byte
  len : Word32
  rdErr : Bool
  done : Bool
  stage : Stage
  /-- A host-injected abort was seen in this file (42_stream_framer.md R131; log 15). -/
  aborted : Bool
deriving DecidableEq, Repr

/-- The container_writer's registers (10_state.md R36, R37; 43_container_writer.md R142, R150). `sample_count` is the length
of `sampleBuf` (log 24). -/
structure Writer where
  sampleRate : Word32
  sampleBuf : List Sample
  staging : Image
  stage : WriterStage
  wDone : Bool
  wOk : Bool
deriving DecidableEq, Repr

/-- The byte source: the bytes of the input buffer by offset, in canonical form (Memory.wf); an offset that is not listed
holds 0x00 (log 13). -/
abbrev Memory := List Host.Cell

/-- The input pins of the three blocks (30_encoding.md R69, R72, R73). -/
structure Pins where
  rst : Bool
  init : Bool
  inValid : Bool
  inNibble : Nibble
  start : Bool
  bufLen : Word32
  rdErr : Bool
  sampleRate : Word32
  sinkErr : Bool
deriving DecidableEq, Repr

/-- What the outside world does at one edge (log 8): the pins, a buffer the caller places (70_reset_and_hazards.md R203), and the
host-injected abort that 42_stream_framer.md R131 lets a model admit (log 15). -/
structure Drive where
  pins : Pins
  place : Option Memory
  abort : Bool
deriving DecidableEq, Repr

/-- The whole machine: INVENTORY.md, section State. -/
structure State where
  dec : Decoder
  fr : Framer
  wr : Writer
  /-- The input buffer (20_memory.md R40). -/
  input : Memory
  /-- The containers the sink holds, in commit order (20_memory.md R45; log 16). -/
  sink : List Image
  /-- The drive of the coming edge. -/
  now : Drive
  /-- The drives of the edges after it, the next one first. -/
  later : List Drive
deriving DecidableEq, Repr

/-- Why the machine stops. -/
inductive Fault
  /-- Raised by `step` when the feed loop would read the buffer at an offset at or beyond L (20_memory.md R42, decision D25).
  Safe: the machine stops where the spec says no run comes (log 17). -/
  | inputReadOutOfRange
deriving DecidableEq, Repr

/-- What the model gives no meaning. -/
inductive Refusal
  /-- Raised by `exec`'s refused arms, for an instruction that has no meaning yet. Safe. No arm is refused in this model. -/
  | notModelled (mnemonic : String)
  /-- Raised by `step` when the caller changes the input buffer while a file is in progress (70_reset_and_hazards.md R204: such a
  caller "has no meaning in the spec"; U14: refuse). Safe (log 14). -/
  | bufferChangedDuringFile
deriving DecidableEq, Repr

/-- Every strobe and level low. -/
def Pins.low : Pins where
  rst := false
  init := false
  inValid := false
  inNibble := 0#4
  start := false
  bufLen := 0#32
  rdErr := false
  sampleRate := 0#32
  sinkErr := false

/-- The decoder after RESET or INIT of a build (10_state.md R30, R32). -/
def Decoder.initial (P : Params) : Decoder where
  stepIndex := P.initStepIndex
  predicted := P.initPredicted
  outValid := false

/-- The framer after RESET (10_state.md R38; `cur_byte`, `L`, `rd_err`, `done`, the stage and the abort mark are DESIGN CHOICE: log 12). -/
def Framer.initial : Framer where
  cursor := 0
  phase := .high
  payloadOffset := 0
  mode := .raw
  busy := false
  status := .none
  curByte := 0#8
  len := 0#32
  rdErr := false
  done := false
  stage := .header 0
  aborted := false

/-- The writer after RESET (10_state.md R38; the staging image, the stage, `w_done` and `w_ok` are DESIGN CHOICE: log 12). -/
def Writer.initial : Writer where
  sampleRate := Config.resetSampleRate
  sampleBuf := []
  staging := []
  stage := .idle
  wDone := false
  wOk := false

/-- The machine of a build right after RESET with nothing placed, nothing committed and every pin low
(70_reset_and_hazards.md R200, R201). -/
def State.resetOf (P : Params) : State where
  dec := Decoder.initial P
  fr := Framer.initial
  wr := Writer.initial
  input := []
  sink := []
  now := { pins := Pins.low, place := none, abort := false }
  later := []

/-- The same for the build this model runs. -/
def State.reset : State := State.resetOf Config.build

end Sys2Proof.Machine
end

