-- ==== Sys2Proof/Machine/Operands.lean ====
section
/-! DEFINITION. Operand assembly: the nibble's fields, the table lookups, the magnitude, the sign and the clamps. -/

namespace Sys2Proof.Machine

/-- `clamp` of 00_scope.md R11, in the integers. -/
def clamp (v lo hi : Int) : Int :=
  if v < lo then lo else if hi < v then hi else v

theorem clamp_mem (v : Int) {lo hi : Int} (h : lo ≤ hi) : lo ≤ clamp v lo hi ∧ clamp v lo hi ≤ hi := by
  unfold clamp; split <;> [skip; split] <;> omega

/-- The sign bit of a nibble (30_encoding.md R60): 1 subtracts. -/
def signBit (n : Nibble) : Bool := n.getLsbD 3

/-- Magnitude bit 2: adds the full step size (30_encoding.md R60). -/
def magBit2 (n : Nibble) : Bool := n.getLsbD 2

/-- Magnitude bit 1: adds half the step size (30_encoding.md R60). -/
def magBit1 (n : Nibble) : Bool := n.getLsbD 1

/-- Magnitude bit 0: adds a quarter of the step size (30_encoding.md R60). -/
def magBit0 (n : Nibble) : Bool := n.getLsbD 0

/-- Step 1: the step size at the index as read before the update (41_adpcm_decode.md R81). -/
def stepSizeAt (P : Params) (i : Fin 49) : Nat := P.stepSize.get i

/-- The index delta, addressed by the whole nibble, sign included (30_encoding.md R63). -/
def indexDeltaAt (P : Params) (n : Nibble) : Int := P.indexDelta.get n.toFin

/-- Step 3: the magnitude as the sum of three separately floored terms and the bias (30_encoding.md R64, 41_adpcm_decode.md R84). -/
def magnitude (s : Nat) (n : Nibble) : Nat :=
  s / 8 + (if magBit2 n then s else 0) + (if magBit1 n then s / 2 else 0) + (if magBit0 n then s / 4 else 0)

/-- Step 2: the index after the update, its sum taken in the integers before the clamp (41_adpcm_decode.md R82). -/
def nextIndex (P : Params) (i : Fin 49) (n : Nibble) : Fin 49 :=
  ⟨(clamp ((i.val : Int) + indexDeltaAt P n) 0 48).toNat, by
    have := clamp_mem ((i.val : Int) + indexDeltaAt P n) (lo := 0) (hi := 48) (by decide)
    omega⟩

/-- Steps 4 and 5: the predictor plus or minus the magnitude, exact, then clamped (41_adpcm_decode.md R85, R86). -/
def nextPredicted (P : Params) (i : Fin 49) (p : Predictor) (n : Nibble) : Predictor :=
  let d : Int := magnitude (stepSizeAt P i) n
  let q : Int := if signBit n then p.toInt - d else p.toInt + d
  BitVec.ofInt 12 (clamp q (-2048) 2047)

/-- Step 6: 16 times the predictor as a 16-bit two's-complement word (41_adpcm_decode.md R87, 00_scope.md R13). -/
def sampleOf (p : Predictor) : Sample := BitVec.ofInt 16 (16 * p.toInt)

/-- The `n` low bytes of a value, lowest first: byte i is `v[8i+7:8i]` (20_memory.md R45). -/
def leBytes : Nat → Nat → List Byte
  | 0, _ => []
  | n + 1, v => BitVec.ofNat 8 v :: leBytes n (v / 256)

end Sys2Proof.Machine
end

