-- ==== Sys2Proof/Machine/Flags.lean ====
section
/-! DEFINITION. The decoder has no flags (10_state.md R25); what stands here are the status codes and the one-bit results. -/

namespace Sys2Proof.Machine

/-- The number a status code has in `status[2:0]` (60_exceptions.md R171). -/
def statusCode : Status → BitVec 3
  | .none => 0#3
  | .ok => 1#3
  | .skippedEmpty => 2#3
  | .readFailure => 3#3
  | .partialDecode => 4#3
  | .writeFailure => 5#3

/-- The outcome after the writer's result (42_stream_framer.md R130, 60_exceptions.md R174): a failed write wins over an abort (R180). -/
def outcomeOf (aborted wOk : Bool) : Status :=
  if wOk then (if aborted then .partialDecode else .ok) else .writeFailure

/-- The legal sample rates, [1, 2^31-1] (43_container_writer.md R143). -/
def rateLegal (r : Word32) : Bool :=
  decide (1 ≤ r.toNat) && decide (r.toNat ≤ Config.maxSampleRate)

/-- The code `payload_offset` has in each mode (42_stream_framer.md R122). -/
def offsetOf : Mode → Nat
  | .raw => 0
  | .headered => Config.headerLen

end Sys2Proof.Machine
end

