-- ==== Sys2Proof/Machine/Ops.lean ====
section
/-! DEFINITION. The named operations: the input buffer, DECODE_NIBBLE and the decoder's clear, ending a file, appending a
sample, MemWrite. -/

namespace Sys2Proof.Machine

/-- The canonical form: offsets strictly rising from `lo`, no listed byte 0x00 (log 13). -/
def Memory.wfFrom : Nat → Memory → Bool
  | _, [] => true
  | lo, (a, b) :: m => decide (lo ≤ a) && decide (b ≠ 0#8) && Memory.wfFrom (a + 1) m

/-- The canonical form of a buffer. -/
def Memory.wf (m : Memory) : Bool := Memory.wfFrom 0 m

/-- The byte at an offset; one that is not listed is 0x00 (log 13). -/
def Memory.read : Memory → Nat → Byte
  | [], _ => 0#8
  | (a, b) :: m, x => if x = a then b else Memory.read m x

/-- Put a byte at an offset, keeping the canonical form. The machine never writes the buffer (20_memory.md R40); the caller
builds one with this. -/
def Memory.write : Memory → Nat → Byte → Memory
  | [], x, v => if v = 0#8 then [] else [(x, v)]
  | (a, b) :: m, x, v =>
    if x < a then (if v = 0#8 then (a, b) :: m else (x, v) :: (a, b) :: m)
    else if x = a then (if v = 0#8 then m else (x, v) :: m)
    else (a, b) :: Memory.write m x v

/-- The buffer whose bytes from offset `at_` on are `bs`. -/
def Memory.ofBytesFrom : Nat → List Byte → Memory
  | _, [] => []
  | k, b :: bs => if b = 0#8 then Memory.ofBytesFrom (k + 1) bs else (k, b) :: Memory.ofBytesFrom (k + 1) bs

/-- The buffer that holds exactly these bytes (20_memory.md R40). -/
def Memory.ofBytes (bs : List Byte) : Memory := Memory.ofBytesFrom 0 bs

/-- The first `len` bytes of a buffer, in offset order. -/
def Memory.bytes (m : Memory) (len : Nat) : List Byte :=
  (List.range len).map (Memory.read m)

/-- `MemRead(a, 1)`, defined only below L (20_memory.md R40, R42). -/
def memRead (m : Memory) (len : Word32) (a : Nat) : Except Fault Byte :=
  if a < len.toNat then .ok (Memory.read m a) else .error .inputReadOutOfRange

/-- `MemWrite(a, n, v)` into an image: the `n` bytes of `v`, lowest first, at offsets a to a+n-1 (20_memory.md R45). Bytes
skipped over between the image's end and `a` become 0x00; the writer never skips any (log 23). -/
def memWrite (img : Image) (a n v : Nat) : Image :=
  (img ++ List.replicate (a - img.length) 0#8).take a ++ leBytes n v ++ img.drop (a + n)

/-- DECODE_NIBBLE (41_adpcm_decode.md R83): both registers written from the values before the edge, `out_valid` set (R90). -/
def decodeNibble (P : Params) (d : Decoder) (n : Nibble) : Decoder where
  stepIndex := nextIndex P d.stepIndex n
  predicted := nextPredicted P d.stepIndex d.predicted n
  outValid := true

/-- A file's nibbles through the decoder, in feed order: the end state and the samples in emission order (42_stream_framer.md
R127 to R129). -/
def decodeNibbles (P : Params) : Decoder → List Nibble → Decoder × List Sample
  | d, [] => (d, [])
  | d, n :: ns =>
    let d' := decodeNibble P d n
    let r := decodeNibbles P d' ns
    (r.1, sampleOf d'.predicted :: r.2)

/-- DECODE_NIBBLE as an edge's command: the decoder alone changes (10_state.md R23). -/
def State.decode (P : Params) (s : State) (n : Nibble) : State :=
  { s with dec := decodeNibble P s.dec n }

/-- The decoder's clear, shared by INIT, RESET and START (41_adpcm_decode.md R93, R94; 42_stream_framer.md R120). -/
def State.clearDecoder (P : Params) (s : State) : State :=
  { s with dec := Decoder.initial P }

/-- `raise Outcome(code)` (60_exceptions.md R170, 42_stream_framer.md R132): `status` takes the code, `done` pulses, `busy`
clears. It is no trap: nothing is saved and nothing returns from it but the next START or RESET (R182). -/
def raiseOutcome (f : Framer) (code : Status) : Framer :=
  { f with status := code, done := true, busy := false, stage := .header 0 }

/-- `sample_count` (10_state.md R37; log 24). -/
def Writer.sampleCount (w : Writer) : Nat := w.sampleBuf.length

/-- The capacity of `sample_buf` (10_state.md R37). -/
def sampleCapacity (P : Params) : Nat := 2 * P.maxPayloadBytes

/-- Append (43_container_writer.md R141). At the capacity, which the framer's oversize test keeps every file from passing, a sample is
dropped (log 11). -/
def appendSample (P : Params) (buf : List Sample) (x : Sample) : List Sample :=
  if buf.length < sampleCapacity P then buf ++ [x] else buf

end Sys2Proof.Machine
end

