-- ==== Sys2Proof/Machine/Decoder.lean ====
section
/-! DEFINITION. The nibble codes DEC.P0 to DEC.N7 (41_adpcm_decode.md R96 to R111), each DECODE_NIBBLE with its own code:
of any build (00_scope.md R8), and of the build this model runs. -/

namespace Sys2Proof.Machine

/-- DEC.P0, code 0x0 (41_adpcm_decode.md R96), of a build. -/
def execDecP0On (P : Params) (s : State) : Host.Outcome State Fault Refusal := .next (State.decode P s 0x0#4)

/-- DEC.P0 of the build this model runs. -/
def execDecP0 (s : State) : Host.Outcome State Fault Refusal := execDecP0On Config.build s

/-- DEC.P1, code 0x1 (41_adpcm_decode.md R97), of a build. -/
def execDecP1On (P : Params) (s : State) : Host.Outcome State Fault Refusal := .next (State.decode P s 0x1#4)

/-- DEC.P1 of the build this model runs. -/
def execDecP1 (s : State) : Host.Outcome State Fault Refusal := execDecP1On Config.build s

/-- DEC.P2, code 0x2 (41_adpcm_decode.md R98), of a build. -/
def execDecP2On (P : Params) (s : State) : Host.Outcome State Fault Refusal := .next (State.decode P s 0x2#4)

/-- DEC.P2 of the build this model runs. -/
def execDecP2 (s : State) : Host.Outcome State Fault Refusal := execDecP2On Config.build s

/-- DEC.P3, code 0x3 (41_adpcm_decode.md R99), of a build. -/
def execDecP3On (P : Params) (s : State) : Host.Outcome State Fault Refusal := .next (State.decode P s 0x3#4)

/-- DEC.P3 of the build this model runs. -/
def execDecP3 (s : State) : Host.Outcome State Fault Refusal := execDecP3On Config.build s

/-- DEC.P4, code 0x4 (41_adpcm_decode.md R100), of a build. -/
def execDecP4On (P : Params) (s : State) : Host.Outcome State Fault Refusal := .next (State.decode P s 0x4#4)

/-- DEC.P4 of the build this model runs. -/
def execDecP4 (s : State) : Host.Outcome State Fault Refusal := execDecP4On Config.build s

/-- DEC.P5, code 0x5 (41_adpcm_decode.md R101), of a build. -/
def execDecP5On (P : Params) (s : State) : Host.Outcome State Fault Refusal := .next (State.decode P s 0x5#4)

/-- DEC.P5 of the build this model runs. -/
def execDecP5 (s : State) : Host.Outcome State Fault Refusal := execDecP5On Config.build s

/-- DEC.P6, code 0x6 (41_adpcm_decode.md R102), of a build. -/
def execDecP6On (P : Params) (s : State) : Host.Outcome State Fault Refusal := .next (State.decode P s 0x6#4)

/-- DEC.P6 of the build this model runs. -/
def execDecP6 (s : State) : Host.Outcome State Fault Refusal := execDecP6On Config.build s

/-- DEC.P7, code 0x7 (41_adpcm_decode.md R103), of a build. -/
def execDecP7On (P : Params) (s : State) : Host.Outcome State Fault Refusal := .next (State.decode P s 0x7#4)

/-- DEC.P7 of the build this model runs. -/
def execDecP7 (s : State) : Host.Outcome State Fault Refusal := execDecP7On Config.build s

/-- DEC.N0, code 0x8 (41_adpcm_decode.md R104), of a build. -/
def execDecN0On (P : Params) (s : State) : Host.Outcome State Fault Refusal := .next (State.decode P s 0x8#4)

/-- DEC.N0 of the build this model runs. -/
def execDecN0 (s : State) : Host.Outcome State Fault Refusal := execDecN0On Config.build s

/-- DEC.N1, code 0x9 (41_adpcm_decode.md R105), of a build. -/
def execDecN1On (P : Params) (s : State) : Host.Outcome State Fault Refusal := .next (State.decode P s 0x9#4)

/-- DEC.N1 of the build this model runs. -/
def execDecN1 (s : State) : Host.Outcome State Fault Refusal := execDecN1On Config.build s

/-- DEC.N2, code 0xA (41_adpcm_decode.md R106), of a build. -/
def execDecN2On (P : Params) (s : State) : Host.Outcome State Fault Refusal := .next (State.decode P s 0xA#4)

/-- DEC.N2 of the build this model runs. -/
def execDecN2 (s : State) : Host.Outcome State Fault Refusal := execDecN2On Config.build s

/-- DEC.N3, code 0xB (41_adpcm_decode.md R107), of a build. -/
def execDecN3On (P : Params) (s : State) : Host.Outcome State Fault Refusal := .next (State.decode P s 0xB#4)

/-- DEC.N3 of the build this model runs. -/
def execDecN3 (s : State) : Host.Outcome State Fault Refusal := execDecN3On Config.build s

/-- DEC.N4, code 0xC (41_adpcm_decode.md R108), of a build. -/
def execDecN4On (P : Params) (s : State) : Host.Outcome State Fault Refusal := .next (State.decode P s 0xC#4)

/-- DEC.N4 of the build this model runs. -/
def execDecN4 (s : State) : Host.Outcome State Fault Refusal := execDecN4On Config.build s

/-- DEC.N5, code 0xD (41_adpcm_decode.md R109), of a build. -/
def execDecN5On (P : Params) (s : State) : Host.Outcome State Fault Refusal := .next (State.decode P s 0xD#4)

/-- DEC.N5 of the build this model runs. -/
def execDecN5 (s : State) : Host.Outcome State Fault Refusal := execDecN5On Config.build s

/-- DEC.N6, code 0xE (41_adpcm_decode.md R110), of a build. -/
def execDecN6On (P : Params) (s : State) : Host.Outcome State Fault Refusal := .next (State.decode P s 0xE#4)

/-- DEC.N6 of the build this model runs. -/
def execDecN6 (s : State) : Host.Outcome State Fault Refusal := execDecN6On Config.build s

/-- DEC.N7, code 0xF (41_adpcm_decode.md R111), of a build. -/
def execDecN7On (P : Params) (s : State) : Host.Outcome State Fault Refusal := .next (State.decode P s 0xF#4)

/-- DEC.N7 of the build this model runs. -/
def execDecN7 (s : State) : Host.Outcome State Fault Refusal := execDecN7On Config.build s

end Sys2Proof.Machine
end

