-- ==== Sys2Proof/Syntax.lean ====
section
/-! DEFINITION. The instructions: one constructor per row of spec/opcode_table.json. -/

namespace Sys2Proof

/-- The 16 nibble codes (30_encoding.md R66) and the four port commands (R71). No row has an operand of its own: a nibble
code names its sign and magnitude bits, and FRAMER_START takes its operands from the pins. -/
inductive Instr
  | decP0 | decP1 | decP2 | decP3 | decP4 | decP5 | decP6 | decP7
  | decN0 | decN1 | decN2 | decN3 | decN4 | decN5 | decN6 | decN7
  | reset
  | init
  | idle
  | framerStart
deriving DecidableEq, Repr

end Sys2Proof
end

