-- ==== Sys2Proof/Assembly.lean ====
section
/-! DEFINITION. The test-stream statements of 30_encoding.md R74 and R75. -/

namespace Sys2Proof

/-- One statement of the stream form of 30_encoding.md R74. Numbers are kept as written; WellFormed checks their ranges. -/
inductive Stmt
  /-- A mnemonic of the opcode table, by its own name. 30_encoding.md R74 and 92_eei_decisions.md D24 list RESET, INIT, IDLE and
  the nibble codes; that FRAMER_START, a row of the table by R71, may stand here too is the model's: DESIGN CHOICE, log 28. -/
  | cmd (i : Instr)
  /-- `NIB 0x<h>`, the other spelling of a nibble code (R75). -/
  | nib (h : Nat)
  /-- `BYTE 0x<hh>`: two nibbles, bits 7..4 first. -/
  | byte (hh : Nat)
  /-- `FILE [b0, b1, ...] RATE r`: one file through the framer and the writer. -/
  | file (bytes : List Nat) (rate : Nat)
deriving DecidableEq, Repr

end Sys2Proof
end

