-- ==== Sys2Proof/WellFormed.lean ====
section
/-! DEFINITION. Which instructions and stream statements are well formed. -/

namespace Sys2Proof

/-- Every instruction is well formed: no code is reserved or illegal (30_encoding.md R67) and no row has an operand. -/
def Instr.wellFormed : Instr → Bool
  | .decP0 | .decP1 | .decP2 | .decP3 | .decP4 | .decP5 | .decP6 | .decP7 => true
  | .decN0 | .decN1 | .decN2 | .decN3 | .decN4 | .decN5 | .decN6 | .decN7 => true
  | .reset | .init | .idle | .framerStart => true

/-- A statement's numbers fit what they stand for: a nibble 4 bits (30_encoding.md R60), a byte 8 bits (R61), a file's bytes 8
bits each with a length buf_len can carry, and a rate the 32-bit sample_rate port can carry (R72, R73). An illegal rate
(0, or 2^31 and more) is well formed: it has an outcome (43_container_writer.md R143). -/
def Stmt.wellFormed : Stmt → Bool
  | .cmd i => i.wellFormed
  | .nib h => decide (h < 16)
  | .byte hh => decide (hh < 256)
  | .file bs r => bs.all (fun b => decide (b < 256)) && decide (bs.length < 2 ^ 32) && decide (r < 2 ^ 32)

end Sys2Proof
end

