-- ==== Sys2Proof/Decode.lean ====
section
/-! DEFINITION. From nibble codes, payload bytes and port lines to instructions, and back. -/

namespace Sys2Proof

/-- The lines that choose the edge's command (30_encoding.md R70, and `start` of R72). -/
structure Command where
  rst : Bool
  start : Bool
  init : Bool
  inValid : Bool
  inNibble : Nibble
deriving DecidableEq, Repr

/-- Why a word is no nibble code. -/
inductive DecodeReject
  /-- The word has no bits at all. -/
  | emptyWord
  /-- The word has a bit set above bit 3: a 4-bit port cannot carry it (30_encoding.md R67, R68). -/
  | codeTooWide
deriving DecidableEq, Repr

/-- The opcode map of 30_encoding.md R66, by the bits 3 to 0 of its table, total over the 16 codes (R67). -/
def decodeCode (n : Nibble) : Instr :=
  match n.getLsbD 3, n.getLsbD 2, n.getLsbD 1, n.getLsbD 0 with
  | false, false, false, false => .decP0
  | false, false, false, true => .decP1
  | false, false, true, false => .decP2
  | false, false, true, true => .decP3
  | false, true, false, false => .decP4
  | false, true, false, true => .decP5
  | false, true, true, false => .decP6
  | false, true, true, true => .decP7
  | true, false, false, false => .decN0
  | true, false, false, true => .decN1
  | true, false, true, false => .decN2
  | true, false, true, true => .decN3
  | true, true, false, false => .decN4
  | true, true, false, true => .decN5
  | true, true, true, false => .decN6
  | true, true, true, true => .decN7

/-- The command of one edge, by the priority of 30_encoding.md R70. A `start` that is taken drives the decoder's `init`
(42_stream_framer.md R120), so it ranks with INIT, above a nibble (log 9). -/
def decodeCommand (c : Command) : Instr :=
  if c.rst then .reset
  else if c.start then .framerStart
  else if c.init then .init
  else if c.inValid then decodeCode c.inNibble
  else .idle

/-- The first nibble of a payload byte (30_encoding.md R61). -/
def highNibble (b : Byte) : Nibble := b.extractLsb' 4 4

/-- The second nibble of a payload byte (30_encoding.md R61). -/
def lowNibble (b : Byte) : Nibble := b.extractLsb' 0 4

/-- The nibbles of a byte string in feed order: high then low, bytes in increasing offset (20_memory.md R46, R56). -/
def nibblesOf (bs : List Byte) : List Nibble :=
  bs.flatMap (fun b => [highNibble b, lowNibble b])

/-- A payload's codes as instructions: a byte always carries exactly two (30_encoding.md R61). -/
def decodePayload (bs : List Byte) : List Instr :=
  (nibblesOf bs).map decodeCode

/-- A table word: `nbits` bits with the value `w`. Codes have one fixed length of 4 bits (30_encoding.md R68). -/
def decodeWord (nbits w : Nat) : Except DecodeReject Instr :=
  if nbits = 0 then .error .emptyWord
  else if w < 16 then .ok (decodeCode (BitVec.ofNat 4 w))
  else .error .codeTooWide

/-- The instruction the decoder reads from a word numbered as spec/opcode_table.json numbers it (log 21). -/
def decodeTableWord (nbits w : Nat) : Option Instr :=
  (decodeWord nbits w).toOption

/-- The nibble code of an instruction, from the table of 30_encoding.md R66; the port commands have none (R71). -/
def encodeCode : Instr → Option Nibble
  | .decP0 => some 0x0#4 | .decP1 => some 0x1#4 | .decP2 => some 0x2#4 | .decP3 => some 0x3#4
  | .decP4 => some 0x4#4 | .decP5 => some 0x5#4 | .decP6 => some 0x6#4 | .decP7 => some 0x7#4
  | .decN0 => some 0x8#4 | .decN1 => some 0x9#4 | .decN2 => some 0xA#4 | .decN3 => some 0xB#4
  | .decN4 => some 0xC#4 | .decN5 => some 0xD#4 | .decN6 => some 0xE#4 | .decN7 => some 0xF#4
  | .reset | .init | .idle | .framerStart => none

/-- The lines all low. -/
def Command.low : Command :=
  { rst := false, start := false, init := false, inValid := false, inNibble := 0#4 }

/-- The port condition of an instruction with every don't-care line low (the "encoding" column of spec/opcode_table.json). -/
def encode (i : Instr) : Command :=
  match i with
  | .reset => { Command.low with rst := true }
  | .init => { Command.low with init := true }
  | .idle => Command.low
  | .framerStart => { Command.low with start := true }
  | i => { Command.low with inValid := true, inNibble := (encodeCode i).getD 0#4 }

/-- Two nibbles as the payload byte that feeds them in that order (30_encoding.md R61). -/
def packNibbles (hi lo : Nibble) : Byte := hi ++ lo

end Sys2Proof
end

