-- ==== Sys2Proof/Machine/Container.lean ====
section
/-! DEFINITION. The container image (43_container_writer.md R145 to R149), built with MemWrite. -/

namespace Sys2Proof.Machine

/-- Four ASCII characters as MemWrite's value: the first character at the lowest offset. -/
def fourCC (a b c d : Nat) : Nat := a + 256 * (b + 256 * (c + 256 * d))

/-- The 44-byte header of 43_container_writer.md R147 for `N` samples at a rate. -/
def riffHeader (rate : Word32) (N : Nat) : Image :=
  let img : Image := []
  let img := memWrite img 0 4 (fourCC 0x52 0x49 0x46 0x46)      -- RIFF
  let img := memWrite img 4 4 (36 + 2 * N)
  let img := memWrite img 8 4 (fourCC 0x57 0x41 0x56 0x45)      -- WAVE
  let img := memWrite img 12 4 (fourCC 0x66 0x6D 0x74 0x20)     -- fmt
  let img := memWrite img 16 4 16
  let img := memWrite img 20 2 1
  let img := memWrite img 22 2 1
  let img := memWrite img 24 4 rate.toNat
  let img := memWrite img 28 4 (2 * rate.toNat)
  let img := memWrite img 32 2 2
  let img := memWrite img 34 2 16
  let img := memWrite img 36 4 (fourCC 0x64 0x61 0x74 0x61)     -- data
  memWrite img 40 4 (2 * N)

/-- The samples from number `k` on, sample k at offset 44 + 2k (43_container_writer.md R148). -/
def writeSamples : Image → Nat → List Sample → Image
  | img, _, [] => img
  | img, k, x :: xs => writeSamples (memWrite img (44 + 2 * k) 2 x.toNat) (k + 1) xs

/-- The whole image of a file (43_container_writer.md R150): the header, then the samples. -/
def containerImage (P : Params) (rate : Word32) (buf : List Sample) : Image :=
  match P.containerFormat with
  | .riffWavePcm => writeSamples (riffHeader rate buf.length) 0 buf

/-- The length of the image of `N` samples (43_container_writer.md R149). -/
def imageLength (N : Nat) : Nat := 44 + 2 * N

/-- Byte `k` of the image of a file, straight from the header or from sample (k - 44) / 2: what the writer stages at one edge
(70_reset_and_hazards.md R212). -/
def imageByte (P : Params) (rate : Word32) (buf : List Sample) (k : Nat) : Byte :=
  match P.containerFormat with
  | .riffWavePcm =>
    if k < 44 then (riffHeader rate buf.length)[k]?.getD 0#8
    else
      let x := buf[(k - 44) / 2]?.getD 0#16
      if k % 2 = 0 then x.extractLsb' 0 8 else x.extractLsb' 8 8

end Sys2Proof.Machine
end

