-- ==== Sys2Proof/Machine/Ports.lean ====
section
/-! DEFINITION. The combinational ports of the three blocks (30_encoding.md R69, R72, R73), as functions of the state. -/

namespace Sys2Proof.Machine

/-- `out_sample` (10_state.md R32): combinational, whether or not `out_valid` is 1. -/
def outSample (d : Decoder) : Sample := sampleOf d.predicted

/-- `dbg_step_index[5:0]` (10_state.md R33). -/
def dbgStepIndex (d : Decoder) : BitVec 6 := BitVec.ofNat 6 d.stepIndex.val

/-- `dbg_predicted[11:0]` (10_state.md R33). -/
def dbgPredicted (d : Decoder) : BitVec 12 := d.predicted

/-- START is taken at this edge: `start = 1`, `busy = 0` (42_stream_framer.md R120), and no RESET (41_adpcm_decode.md R94). -/
def startTaken (s : State) : Bool := s.now.pins.start && !s.fr.busy && !s.now.pins.rst

/-- `dec_init`: asserted only at START (42_stream_framer.md R120, R128; log 10). -/
def decInit (s : State) : Bool := startTaken s

/-- `dec_valid`: a nibble is driven at each edge of the feed loop (42_stream_framer.md R127). At an edge with `rst` = 1 it still shows 1
though RESET wins and no nibble is decoded: DESIGN CHOICE, log 26. -/
def decValid (s : State) : Bool := s.fr.busy && decide (s.fr.stage = .feed)

/-- `rd_addr` (30_encoding.md R72): the signature byte under test, or the payload byte at `cursor`. The spec gives it only as the
offset read; what it shows where nothing is read (no file in progress, signature byte `k` at or beyond L, a low nibble, the
drain, finish and wait edges) is the model's: DESIGN CHOICE, log 27. -/
def rdAddr (f : Framer) : Word32 :=
  match f.stage with
  | .header k => BitVec.ofNat 32 k.val
  | _ => BitVec.ofNat 32 f.cursor

/-- `rd_data` (30_encoding.md R72): `MemRead(rd_addr, 1)`, in the same cycle; at an edge that reads nothing it is used by nobody
(log 27). -/
def rdData (s : State) : Except Fault Byte := memRead s.input s.fr.len (rdAddr s.fr).toNat

/-- `finish`: from the framer to the writer (30_encoding.md R73, 42_stream_framer.md R130). At an edge with `rst` = 1 it still shows 1
though RESET wins and no FINISH is taken: DESIGN CHOICE, log 26. -/
def finishPort (s : State) : Bool := s.fr.busy && decide (s.fr.stage = .finish)

/-- `status[2:0]` (30_encoding.md R72). -/
def statusPort (s : State) : BitVec 3 := statusCode s.fr.status

/-- `s_valid`, driven by the decoder's `out_valid` (30_encoding.md R73). -/
def sValid (s : State) : Bool := s.dec.outValid

/-- `s_data`, driven by the decoder's `out_sample` (30_encoding.md R73). -/
def sData (s : State) : Sample := outSample s.dec

/-- `sink_commit` (30_encoding.md R73): the cycle in which the whole staged image is handed over (43_container_writer.md R150). It is a
function of the writer alone, so at an edge with `rst` = 1 it still shows 1 though no image is handed over; the spec does not say
what the port shows there: DESIGN CHOICE, log 26. -/
def sinkCommit (w : Writer) : Bool :=
  decide (w.stage = .staging) && decide (imageLength w.sampleCount ≤ w.staging.length)

/-- `w_done` and `w_ok` (30_encoding.md R73): registers of the writer. -/
def writerResult (w : Writer) : Bool × Bool := (w.wDone, w.wOk)

/-- `busy` and `done` (30_encoding.md R72): registers of the framer. -/
def busyDone (f : Framer) : Bool × Bool := (f.busy, f.done)

end Sys2Proof.Machine
end

