-- ==== Sys2Proof/Machine/Framer.lean ====
section
/-! DEFINITION. FRAMER_START and the framer's own progress at each edge of a file (42_stream_framer.md). -/

namespace Sys2Proof.Machine

/-- The framer at START (42_stream_framer.md R120): `L` and `rd_err` sampled, everything of the file begun anew; with `rd_err`
the file ends at once (R121). -/
def startFramer (f : Framer) (p : Pins) : Framer :=
  let f' : Framer :=
    { cursor := 0, phase := .high, payloadOffset := 0, mode := .raw, busy := true, status := .none,
      curByte := f.curByte, len := p.bufLen, rdErr := p.rdErr, done := false, stage := .header 0, aborted := false }
  if f'.rdErr then raiseOutcome f' .readFailure else f'

/-- The writer at START (43_container_writer.md R142). -/
def startWriter (w : Writer) (p : Pins) : Writer :=
  { sampleRate := p.sampleRate, sampleBuf := [], staging := [], stage := .idle, wDone := false, wOk := w.wOk }

/-- FRAMER_START (42_stream_framer.md R120, R121): the framer begins the file, the decoder performs INIT, the writer STARTs, all at this
edge (log 10). While `busy` it is ignored (R133; log 25). -/
def execFramerStartOn (P : Params) (s : State) : Host.Outcome State Fault Refusal :=
  if s.fr.busy then .next s
  else .next { State.clearDecoder P s with fr := startFramer s.fr s.now.pins, wr := startWriter s.wr s.now.pins }

/-- FRAMER_START of the build this model runs. -/
def execFramerStart (s : State) : Host.Outcome State Fault Refusal := execFramerStartOn Config.build s

/-- Header detection has settled the mode (42_stream_framer.md R122): the empty-payload test (R125), then the oversize test
(R126), then the feed loop. -/
def enterPayload (P : Params) (f : Framer) (mode : Mode) : Framer :=
  let off := offsetOf mode
  let f := { f with mode := mode, payloadOffset := off }
  let payload : Int := (f.len.toNat : Int) - off
  if payload ≤ 0 then raiseOutcome f .skippedEmpty
  else if (P.maxPayloadBytes : Int) < payload then raiseOutcome f .writeFailure
  else { f with cursor := off, stage := .feed }

/-- One edge of the signature test (42_stream_framer.md R122): byte `k`, stopping at the first k with k ≥ L or a mismatch. -/
def headerTick (P : Params) (f : Framer) (m : Memory) (k : Fin 7) : Framer :=
  if k.val < f.len.toNat ∧ Memory.read m k.val = Config.headerSignature.get k then
    if h : k.val + 1 < 7 then { f with stage := .header ⟨k.val + 1, h⟩ }
    else enterPayload P f .headered
  else enterPayload P f .raw

/-- One edge of the feed loop (42_stream_framer.md R127): the high nibble loads `cur_byte`, the low one moves `cursor` on. An injected
abort lets the current nibble pass and leaves the loop (R131; log 15). -/
def feedTick (f : Framer) (m : Memory) (abort : Bool) : Framer :=
  match f.phase with
  | .high =>
    { f with curByte := Memory.read m f.cursor, phase := .low, aborted := f.aborted || abort,
             stage := if abort then .drain else .feed }
  | .low =>
    { f with cursor := f.cursor + 1, phase := .high, aborted := f.aborted || abort,
             stage := if abort || decide (f.len.toNat ≤ f.cursor + 1) then .drain else .feed }

/-- The framer's state after an edge without RESET or START, from the state before it: outside a file only the `done` pulse
ends (42_stream_framer.md R132); in a file the procedure of R134 goes on. -/
def framerTick (P : Params) (s : State) : Framer :=
  let f := { s.fr with done := false }
  if s.fr.busy then
    match s.fr.stage with
    | .header k => headerTick P f s.input k
    | .feed => feedTick f s.input s.now.abort
    | .drain => { f with stage := .finish }
    | .finish => { f with stage := .wait }
    | .wait => if s.wr.wDone then raiseOutcome f (outcomeOf f.aborted s.wr.wOk) else f
  else f

/-- The nibble the framer drives in the feed loop: the high one from `rd_data`, the low one from `cur_byte` (42_stream_framer.md R127). -/
def feedNibble (s : State) : Except Fault Nibble :=
  match s.fr.phase with
  | .high => (memRead s.input s.fr.len s.fr.cursor).map highNibble
  | .low => .ok (lowNibble s.fr.curByte)

end Sys2Proof.Machine
end

