-- ==== Sys2Proof/Machine/Port.lean ====
section
/-! DEFINITION. The decoder's port commands RESET, INIT and IDLE (41_adpcm_decode.md R93 to R95). -/

namespace Sys2Proof.Machine

/-- RESET (41_adpcm_decode.md R94): the decoder's clear, and in the framer and writer the values of 10_state.md R38. The byte source, the
sink and the pins are outside the blocks and keep what they hold (logs 16, 26). -/
def execResetOn (P : Params) (s : State) : Host.Outcome State Fault Refusal :=
  .next { State.clearDecoder P s with fr := Framer.initial, wr := Writer.initial }

/-- RESET of the build this model runs. -/
def execReset (s : State) : Host.Outcome State Fault Refusal := execResetOn Config.build s

/-- INIT (41_adpcm_decode.md R93). -/
def execInitOn (P : Params) (s : State) : Host.Outcome State Fault Refusal :=
  .next (State.clearDecoder P s)

/-- INIT of the build this model runs. -/
def execInit (s : State) : Host.Outcome State Fault Refusal := execInitOn Config.build s

/-- IDLE (41_adpcm_decode.md R95): the registers are kept, `out_valid` is cleared. No parameter enters. -/
def execIdle (s : State) : Host.Outcome State Fault Refusal :=
  .next { s with dec := { s.dec with outValid := false } }

end Sys2Proof.Machine
end

