-- ==== Sys2Proof/Machine/Dispatch.lean ====
section
/-! DEFINITION. One arm per instruction: its meaning. -/

namespace Sys2Proof.Machine

def exec (i : Instr) (s : State) : Host.Outcome State Fault Refusal :=
  match i with
  | .decP0 => Sys2Proof.Machine.execDecP0 s
  | .decP1 => Sys2Proof.Machine.execDecP1 s
  | .decP2 => Sys2Proof.Machine.execDecP2 s
  | .decP3 => Sys2Proof.Machine.execDecP3 s
  | .decP4 => Sys2Proof.Machine.execDecP4 s
  | .decP5 => Sys2Proof.Machine.execDecP5 s
  | .decP6 => Sys2Proof.Machine.execDecP6 s
  | .decP7 => Sys2Proof.Machine.execDecP7 s
  | .decN0 => Sys2Proof.Machine.execDecN0 s
  | .decN1 => Sys2Proof.Machine.execDecN1 s
  | .decN2 => Sys2Proof.Machine.execDecN2 s
  | .decN3 => Sys2Proof.Machine.execDecN3 s
  | .decN4 => Sys2Proof.Machine.execDecN4 s
  | .decN5 => Sys2Proof.Machine.execDecN5 s
  | .decN6 => Sys2Proof.Machine.execDecN6 s
  | .decN7 => Sys2Proof.Machine.execDecN7 s
  | .reset => Sys2Proof.Machine.execReset s
  | .init => Sys2Proof.Machine.execInit s
  | .idle => Sys2Proof.Machine.execIdle s
  | .framerStart => Sys2Proof.Machine.execFramerStart s

end Sys2Proof.Machine
end

