-- ==== Sys2Proof/Machine/Writer.lean ====
section
/-! DEFINITION. The container_writer's own progress at each edge (43_container_writer.md R141, R150 to R152). -/

namespace Sys2Proof.Machine

/-- Append on `s_valid` (43_container_writer.md R141): the sample of the decode at the edge before (70_reset_and_hazards.md R208). -/
def writerBuffer (P : Params) (s : State) : List Sample :=
  if sValid s then appendSample P s.wr.sampleBuf (sData s) else s.wr.sampleBuf

/-- One more byte of the image in staging (70_reset_and_hazards.md R212). -/
def stageByte (P : Params) (w : Writer) : Image :=
  w.staging ++ [imageByte P w.sampleRate w.sampleBuf w.staging.length]

/-- The writer's state after an edge without RESET or START, from the state before it. FINISH with an illegal rate reports
failure and stages nothing (43_container_writer.md R143); otherwise the image is staged and then committed, `w_done` pulsing with the
sink's answer (R150), and the staging is emptied (R152). -/
def writerTick (P : Params) (s : State) : Writer :=
  let w := { s.wr with sampleBuf := writerBuffer P s, wDone := false }
  match s.wr.stage with
  | .idle =>
    if finishPort s then
      if rateLegal s.wr.sampleRate then { w with staging := stageByte P s.wr, stage := .staging }
      else { w with wOk := false, wDone := true }
    else w
  | .staging =>
    if sinkCommit s.wr then
      { w with staging := [], stage := .idle, wOk := !s.now.pins.sinkErr, wDone := true }
    else { w with staging := stageByte P s.wr }

/-- The sink after an edge (43_container_writer.md R151): the whole image at a commit it accepts, otherwise nothing new. -/
def sinkTick (s : State) : List Image :=
  if sinkCommit s.wr && !s.now.pins.sinkErr then s.sink ++ [s.wr.staging] else s.sink

end Sys2Proof.Machine
end

