-- ==== Sys2Proof/Machine/Edge.lean ====
section
/-! DEFINITION. One edge around the decoder's command: the caller's buffer, the command's source, what the framer and the
writer do beside it, and the next edge's pins. -/

namespace Sys2Proof.Machine

/-- The buffer the caller places at this edge (70_reset_and_hazards.md R203). While a file is in progress the buffer must not change
(R204), unless this edge's RESET discards the file (log 14). -/
def placeBuffer (s : State) : Except Refusal State :=
  match s.now.place with
  | none => .ok s
  | some m =>
    if s.fr.busy && !s.now.pins.rst then .error .bufferChangedDuringFile
    else .ok { s with input := m }

/-- The lines that choose this edge's command: during a file the framer drives the decoder (42_stream_framer.md R127) and `start` is
ignored (R133); otherwise the pins do (30_encoding.md R70; log 9). -/
def commandLines (s : State) : Except Fault Command :=
  if s.now.pins.rst then .ok { Command.low with rst := true }
  else if s.fr.busy then
    if decValid s then (feedNibble s).map (fun n => { Command.low with inValid := true, inNibble := n })
    else .ok Command.low
  else .ok { rst := false, start := s.now.pins.start, init := s.now.pins.init,
             inValid := s.now.pins.inValid, inNibble := s.now.pins.inNibble }

/-- The edge's command: the machine's fetch (30_encoding.md R70). -/
def fetch (s : State) : Except Fault Instr :=
  (commandLines s).map decodeCommand

/-- The framer, the writer and the sink after the edge, beside the command `i` that took `s` to `s'`. RESET and START load
the framer and the writer themselves (41_adpcm_decode.md R94, 42_stream_framer.md R120). -/
def blocksTick (P : Params) (i : Instr) (s s' : State) : State :=
  match i with
  | .reset | .framerStart => s'
  | _ => { s' with fr := framerTick P s, wr := writerTick P s, sink := sinkTick s }

/-- The drive when the caller's script has ended: strobes low, levels held (log 8). -/
def releaseDrive (d : Drive) : Drive where
  pins := { d.pins with rst := false, init := false, inValid := false, start := false }
  place := none
  abort := false

/-- The pins of the next edge (log 8). -/
def nextDrive (s : State) : State :=
  match s.later with
  | [] => { s with now := releaseDrive s.now }
  | d :: ds => { s with now := d, later := ds }

/-- After the command `i` took `s` to `s'`: the other blocks' progress, then the next edge's pins. -/
def finishEdge (P : Params) (i : Instr) (s s' : State) : State :=
  nextDrive (blocksTick P i s s')

/-- One edge of a build whose commands have the meanings `ex` (log 7): the caller's buffer, the command's selection, its
meaning, then the other blocks' progress and the next edge's pins. -/
def stepBy (P : Params) (ex : Instr → State → Host.Outcome State Fault Refusal) (s : State) :
    Host.Outcome State Fault Refusal :=
  match placeBuffer s with
  | .error r => .refused r
  | .ok s =>
    match fetch s with
    | .error f => .fault f
    | .ok i =>
      match ex i s with
      | .next s' => .next (finishEdge P i s s')
      | .fault f => .fault f
      | .refused r => .refused r

/-- The pins present the nibble `n` at the coming edge, and no file is in progress (log 20). -/
def presentNibble (s : State) (n : Nibble) : State :=
  { s with
    fr := { s.fr with busy := false }
    now := { s.now with pins := { s.now.pins with
      rst := false, start := false, init := false, inValid := true, inNibble := n } } }

end Sys2Proof.Machine
end

