-- ==== Sys2Proof/Machine/Step.lean ====
section
/-! DEFINITION. One rising edge of clk (30_encoding.md R69, R70). -/

namespace Sys2Proof.Machine

/-- One edge of the build this model runs: the parametric machine's edge (`stepOn`, Machine/Build.lean) at `Config.build`. -/
def step (s : State) : Host.Outcome State Fault Refusal := stepBy Config.build exec s

/-- `s` with a nibble code presented at the coming edge (log 20): a code has 4 bits (30_encoding.md R68), so the bits of `w`
above bit 3, which the 4-bit port cannot carry, are dropped. -/
def State.withFetchWord (s : State) (_nbits w : Nat) : State :=
  presentNibble s (BitVec.ofNat 4 w)

end Sys2Proof.Machine
end

