-- ==== Sys2Proof/Machine/File.lean ====
section
/-! DEFINITION. The transaction-level meaning of one file (42_stream_framer.md R134), the normative level of decision D1. The machine's
edges realise it; nothing of the machine calls it. -/

namespace Sys2Proof.Machine

/-- What one file leaves (decision D29): the outcome, the framer's mode, the decoder's registers, the samples in `sample_buf`,
and the container the sink got, if any. -/
structure FileResult where
  outcome : Status
  mode : Mode
  stepIndex : Fin 49
  predicted : Predictor
  samples : List Sample
  container : Option Image
deriving DecidableEq, Repr

/-- The signature test on a whole buffer (42_stream_framer.md R122): at least 7 bytes, the first 7 equal to SIG. -/
def isHeadered (bs : List Byte) : Bool :=
  decide (bs.take 7 = Config.headerSignature.toList)

/-- The mode the test settles (42_stream_framer.md R122). -/
def modeOf (bs : List Byte) : Mode := if isHeadered bs then .headered else .raw

/-- The payload: the bytes from the payload offset on (20_memory.md R54). -/
def payloadOf (bs : List Byte) : List Byte := bs.drop (offsetOf (modeOf bs))

/-- A file that ends before any nibble is decoded: the decoder as INIT left it, nothing buffered, nothing committed. -/
def earlyResult (P : Params) (outcome : Status) (mode : Mode) : FileResult where
  outcome := outcome
  mode := mode
  stepIndex := P.initStepIndex
  predicted := P.initPredicted
  samples := []
  container := none

/-- `FILE(buf, rd_err, rate)` of 42_stream_framer.md R134, its checks in the order R180 states as priority. `sinkErr` is the sink's
answer at the commit. -/
def runFile (P : Params) (bs : List Byte) (rdErr : Bool) (rate : Word32) (sinkErr : Bool) : FileResult :=
  if rdErr then earlyResult P .readFailure .raw
  else if payloadOf bs = [] then earlyResult P .skippedEmpty (modeOf bs)
  else if P.maxPayloadBytes < (payloadOf bs).length then earlyResult P .writeFailure (modeOf bs)
  else
    let r := decodeNibbles P (Decoder.initial P) (nibblesOf (payloadOf bs))
    let accepted := rateLegal rate && !sinkErr
    { outcome := outcomeOf false accepted
      mode := modeOf bs
      stepIndex := r.1.stepIndex
      predicted := r.1.predicted
      samples := r.2
      container := if accepted then some (containerImage P rate r.2) else none }

/-- How many leading bytes of two strings agree. -/
def commonLength : List Byte → List Byte → Nat
  | a :: as, b :: bs => if a = b then commonLength as bs + 1 else 0
  | _, _ => 0

/-- The edges of the signature test (70_reset_and_hazards.md R212): one byte an edge, stopping at the first mismatch or at L. -/
def headerEdges (bs : List Byte) : Nat :=
  min 7 (commonLength bs Config.headerSignature.toList + 1)

/-- The edges from START to the one that ends the file (70_reset_and_hazards.md R212; the model's own count: log 7). -/
def fileEdges (P : Params) (bs : List Byte) (rdErr : Bool) (rate : Word32) : Nat :=
  let n := (payloadOf bs).length
  if rdErr then 1
  else if n = 0 ∨ P.maxPayloadBytes < n then 1 + headerEdges bs
  else 1 + headerEdges bs + 2 * n + 1 + (if rateLegal rate then imageLength (2 * n) + 1 else 1) + 1

end Sys2Proof.Machine
end

