-- ==== Sys2Proof/Machine/Assemble.lean ====
section
/-! DEFINITION. What the test-stream statements of 30_encoding.md R74 expand to, as commands and as drives of the pins (log 23). -/

namespace Sys2Proof.Machine

/-- A byte list as written, as bytes. -/
def toBytes (bs : List Nat) : List Byte := bs.map (BitVec.ofNat 8)

/-- The commands a statement stands for (30_encoding.md R74). FRAMER_START as a statement stands for itself: R74 does not list it
(DESIGN CHOICE: log 28). A FILE is INIT and one BYTE per payload byte, as its header check
selects them; the check and the writer's finish are no commands of the decoder. It is a notation's expansion, so a payload above
P_MAX_PAYLOAD_BYTES is listed whole here although its file decodes none of it (DESIGN CHOICE: log 23). -/
def expandStmt : Stmt → List Instr
  | .cmd i => [i]
  | .nib h => [decodeCode (BitVec.ofNat 4 h)]
  | .byte hh => decodePayload [BitVec.ofNat 8 hh]
  | .file bs _ => .init :: decodePayload (payloadOf (toBytes bs))

/-- The pins that present a command. -/
def pinsOf (c : Command) : Pins :=
  { Pins.low with rst := c.rst, start := c.start, init := c.init, inValid := c.inValid, inNibble := c.inNibble }

/-- A drive of the pins alone. -/
def driveOf (p : Pins) : Drive := { pins := p, place := none, abort := false }

/-- The drive that places a buffer and pulses `start` (70_reset_and_hazards.md R203). -/
def startDrive (bs : List Byte) (rate : Word32) : Drive where
  pins := { Pins.low with start := true, bufLen := BitVec.ofNat 32 bs.length, sampleRate := rate }
  place := some (Memory.ofBytes bs)
  abort := false

/-- The drives of a statement, an edge each: a command is one edge; a FILE is its START and then quiet edges until its outcome
(log 23). R74 and 92_eei_decisions.md D24 list no FRAMER_START statement; here it is one START edge with `buf_len` = 0,
`sample_rate` = 0 and `rd_err` = 0, no buffer placed (the one already there stays) and no quiet edges after it: DESIGN CHOICE,
log 28. -/
def drivesOf (P : Params) : Stmt → List Drive
  | .cmd i => [driveOf (pinsOf (encode i))]
  | .nib h => [driveOf (pinsOf (encode (decodeCode (BitVec.ofNat 4 h))))]
  | .byte hh => (decodePayload [BitVec.ofNat 8 hh]).map (fun i => driveOf (pinsOf (encode i)))
  | .file bs r =>
    let d := startDrive (toBytes bs) (BitVec.ofNat 32 r)
    d :: List.replicate (fileEdges P (toBytes bs) false (BitVec.ofNat 32 r) - 1) (releaseDrive d)

/-- A state with these drives coming, one an edge. -/
def withDrives (s : State) : List Drive → State
  | [] => { s with now := releaseDrive s.now, later := [] }
  | d :: ds => { s with now := d, later := ds }

/-- A test stream, ready to run from a state of a build. -/
def loadStream (P : Params) (s : State) (prog : List Stmt) : State :=
  withDrives s (prog.flatMap (drivesOf P))

end Sys2Proof.Machine
end

