-- ==== Sys2Proof/Machine/Build.lean ====
section
/-! DEFINITION. The machine of any build (00_scope.md R8: the parameters are arguments). `exec` and `step` are this at
`Config.build`. -/

namespace Sys2Proof.Machine

/-- An instruction's meaning in a build. -/
def execOn (P : Params) (i : Instr) (s : State) : Host.Outcome State Fault Refusal :=
  match i with
  | .decP0 => execDecP0On P s
  | .decP1 => execDecP1On P s
  | .decP2 => execDecP2On P s
  | .decP3 => execDecP3On P s
  | .decP4 => execDecP4On P s
  | .decP5 => execDecP5On P s
  | .decP6 => execDecP6On P s
  | .decP7 => execDecP7On P s
  | .decN0 => execDecN0On P s
  | .decN1 => execDecN1On P s
  | .decN2 => execDecN2On P s
  | .decN3 => execDecN3On P s
  | .decN4 => execDecN4On P s
  | .decN5 => execDecN5On P s
  | .decN6 => execDecN6On P s
  | .decN7 => execDecN7On P s
  | .reset => execResetOn P s
  | .init => execInitOn P s
  | .idle => execIdle s
  | .framerStart => execFramerStartOn P s

/-- One rising edge of clk in a build (log 7). -/
def stepOn (P : Params) (s : State) : Host.Outcome State Fault Refusal := stepBy P (execOn P) s

end Sys2Proof.Machine
end

