-- ==== Sys2Proof/Machine/System.lean ====
section
/-! DEFINITION. Several instances side by side (60_exceptions.md R185): each has its own State, and they share only
the build's parameters, ROMs among them. -/

namespace Sys2Proof.Machine

/-- One edge of instance number `k` of a system; a number that names no instance changes nothing. Any order of instances is
allowed (20_memory.md R57; log 22). -/
def stepInstance (P : Params) (k : Nat) (sys : List State) : Host.Outcome (List State) Fault Refusal :=
  match sys[k]? with
  | none => .next sys
  | some s =>
    match stepOn P s with
    | .next t => .next (sys.set k t)
    | .fault f => .fault f
    | .refused r => .refused r

/-- A system of a build after RESET (00_scope.md R8). -/
def resetSystem (P : Params) : List State := List.replicate P.instances (State.resetOf P)

end Sys2Proof.Machine
end

