-- ==== Sys2Proof/Safety.lean ====
section
/-! DEFINITION. The invariants of a run and what a caller owes (70_reset_and_hazards.md R204). -/

namespace Sys2Proof.Machine

/-- Every buffer of the state is in canonical form: the one in place and those the caller has still to place. -/
def bufferInv (s : State) : Prop :=
  Memory.wf s.input = true ∧
  (∀ m, s.now.place = some m → Memory.wf m = true) ∧
  (∀ d ∈ s.later, ∀ m, d.place = some m → Memory.wf m = true)

/-- The first `k` signature bytes are at the buffer's first offsets, below L (42_stream_framer.md R122). -/
def signatureUpTo (s : State) (k : Nat) : Prop :=
  k ≤ s.fr.len.toNat ∧ ∀ j : Fin 7, j.val < k → Memory.read s.input j.val = Config.headerSignature.get j

/-- The framer's registers agree with its place in the file (10_state.md R34, 42_stream_framer.md R122 to R127). -/
def framerInv (P : Params) (s : State) : Prop :=
  s.fr.payloadOffset = offsetOf s.fr.mode ∧
  s.fr.cursor ≤ s.fr.len.toNat ∧
  (s.fr.busy = true → s.fr.status = .none ∧ s.fr.done = false ∧ s.fr.rdErr = false) ∧
  (s.fr.busy = true → ∀ k, s.fr.stage = .header k → s.fr.mode = .raw ∧ s.fr.cursor = 0 ∧ s.fr.phase = .high ∧ signatureUpTo s k.val) ∧
  (s.fr.busy = true → s.fr.stage = .feed →
    s.fr.payloadOffset ≤ s.fr.cursor ∧ s.fr.cursor < s.fr.len.toNat ∧
    s.fr.len.toNat - s.fr.payloadOffset ≤ P.maxPayloadBytes ∧
    (s.fr.mode = .headered ↔ signatureUpTo s 7) ∧
    (s.fr.phase = .low → s.fr.curByte = Memory.read s.input s.fr.cursor))

/-- The nibbles of the payload the framer has fed so far. -/
def fedCount (f : Framer) : Nat :=
  2 * (f.cursor - f.payloadOffset) + (match f.phase with | .high => 0 | .low => 1)

/-- The sample count of a file in progress (42_stream_framer.md R129): before the feed loop nothing; in it every nibble fed has its
sample buffered or on `out_sample`; after it, if no abort came, twice the payload's bytes. -/
def countInv (P : Params) (s : State) : Prop :=
  s.fr.busy = true →
    (∀ k, s.fr.stage = .header k → s.wr.sampleBuf = [] ∧ s.dec.outValid = false ∧ s.fr.aborted = false ∧ s.fr.phase = .high) ∧
    (s.fr.stage = .feed →
      s.fr.payloadOffset ≤ s.fr.cursor ∧ s.fr.cursor < s.fr.len.toNat ∧
      s.fr.len.toNat - s.fr.payloadOffset ≤ P.maxPayloadBytes ∧ s.fr.aborted = false ∧
      s.wr.sampleBuf.length + (if s.dec.outValid then 1 else 0) = fedCount s.fr) ∧
    (s.fr.stage = .drain → s.dec.outValid = true ∧ s.wr.sampleBuf.length + 1 ≤ sampleCapacity P ∧
      (s.fr.aborted = false → s.wr.sampleBuf.length + 1 = 2 * (s.fr.len.toNat - s.fr.payloadOffset))) ∧
    (s.fr.stage = .finish ∨ s.fr.stage = .wait → s.dec.outValid = false ∧
      (s.fr.aborted = false → s.wr.sampleBuf.length = 2 * (s.fr.len.toNat - s.fr.payloadOffset)))

/-- The writer's registers agree with each other (43_container_writer.md R141, R150 to R152): the buffer within its capacity, and the
staging image a beginning of the file's image while the framer waits, empty otherwise. -/
def writerInv (P : Params) (s : State) : Prop :=
  s.wr.sampleBuf.length ≤ sampleCapacity P ∧
  (s.wr.wDone = true → s.wr.stage = .idle) ∧
  (s.wr.stage = .idle → s.wr.staging = []) ∧
  (s.fr.busy = true → s.fr.stage = .finish ∨ s.fr.stage = .wait → s.dec.outValid = false) ∧
  (s.wr.stage = .staging →
    s.fr.busy = true ∧ s.fr.stage = .wait ∧ rateLegal s.wr.sampleRate = true ∧
    s.wr.staging = (containerImage P s.wr.sampleRate s.wr.sampleBuf).take s.wr.staging.length)

/-- Every buffered sample is 16 times a predictor: bits 3..0 are 0 (30_encoding.md R62). -/
def samplesInv (s : State) : Prop :=
  ∀ x ∈ s.wr.sampleBuf, x.extractLsb' 0 4 = 0#4

/-- The caller keeps the buffer from START to `done` (70_reset_and_hazards.md R204). -/
def callerKeepsBuffer (s : State) : Prop :=
  s.now.place = none ∨ s.fr.busy = false ∨ s.now.pins.rst = true

/-- A safe edge: the machine goes on. -/
def safeStep (s : State) : Prop := ∃ t, step s = .next t

end Sys2Proof.Machine
end

