-- ==== Sys2Proof/Certificates/Slice0/Obligations.lean ====
section
/-! DEFINITION. The statements for the provers. -/

open Sys2Proof Sys2Proof.Machine

namespace Sys2Proof.Machine

/-- One DECODE_NIBBLE told by its six steps, in the integers: index delta `delta`, magnitude `mag`, `sub` the sign bit
(spec/41_adpcm_decode.md R83). -/
def decodedBy (d d' : Decoder) (delta : Int) (mag : Nat) (sub : Bool) : Prop :=
  (d'.stepIndex.val : Int) = clamp ((d.stepIndex.val : Int) + delta) 0 48 ∧
  d'.predicted.toInt = clamp (if sub then d.predicted.toInt - mag else d.predicted.toInt + mag) (-2048) 2047 ∧
  d'.outValid = true ∧
  (outSample d').toInt = 16 * d'.predicted.toInt

/-- A worked example of a nibble code: from (i, p) to (i', p') with sample x. -/
def codeExample (i : Instr) (idx : Fin 49) (p : Int) (idx' : Fin 49) (p' x : Int) : Prop :=
  ∀ s, s.dec.stepIndex = idx → s.dec.predicted = BitVec.ofInt 12 p →
    ∃ t, exec i s = .next t ∧ t.dec.stepIndex = idx' ∧ t.dec.predicted.toInt = p' ∧ (outSample t.dec).toInt = x

/-- One rule of spec/41_adpcm_decode.md R96 to R111: the instruction is DECODE_NIBBLE with its code's delta entry, magnitude `d`
of the step size at the old index, and sign; it touches the decoder alone; `d` runs from `lo` (s = 16) to `hi` (s = 1552)
over the default table; the two worked examples hold. -/
def codeRule (i : Instr) (code : Fin 16) (sub : Bool) (d : Nat → Nat) (lo hi : Nat)
    (i0 : Fin 49) (p0 x0 : Int) (i1 : Fin 49) (p1 x1 : Int) : Prop :=
  encodeCode i = some (BitVec.ofFin code) ∧
  (∀ s, ∃ t, exec i s = .next t ∧ t = { s with dec := t.dec } ∧
    decodedBy s.dec t.dec (Config.build.indexDelta.get code) (d (Config.build.stepSize.get s.dec.stepIndex)) sub) ∧
  (∀ k : Fin 49, lo ≤ d (Config.defaultStepSize.get k) ∧ d (Config.defaultStepSize.get k) ≤ hi) ∧
  d 16 = lo ∧ d 1552 = hi ∧
  codeExample i 0 0 i0 p0 x0 ∧ codeExample i 10 100 i1 p1 x1

/-- The meaning of commands of a build. -/
abbrev Meaning := Instr → State → Host.Outcome State Fault Refusal

/-- Every nibble code is DECODE_NIBBLE in a build whose commands mean `ex` (spec/41_adpcm_decode.md R83). -/
def codesDecode (P : Params) (ex : Meaning) : Prop :=
  ∀ (n : Nibble) (s : State), ∃ t, ex (decodeCode n) s = .next t ∧ t = { s with dec := t.dec } ∧
    decodedBy s.dec t.dec (P.indexDelta.get n.toFin)
      (let sz := P.stepSize.get s.dec.stepIndex
       sz / 8 + (if n.toNat / 4 % 2 = 1 then sz else 0) + (if n.toNat / 2 % 2 = 1 then sz / 2 else 0) +
         (if n.toNat % 2 = 1 then sz / 4 else 0))
      (decide (n.toNat / 8 % 2 = 1))

/-- INIT and the framer's START leave the decoder with the build's initial values (spec/41_adpcm_decode.md R93). -/
def initClears (P : Params) (ex : Meaning) : Prop :=
  (∀ s, ∃ t, ex .init s = .next t ∧ t = { s with dec := t.dec } ∧
    t.dec.stepIndex = P.initStepIndex ∧ t.dec.predicted = P.initPredicted ∧ t.dec.outValid = false) ∧
  (∀ s, s.fr.busy = false → ∃ t, ex .framerStart s = .next t ∧
    t.dec.stepIndex = P.initStepIndex ∧ t.dec.predicted = P.initPredicted ∧ t.dec.outValid = false)

/-- A state holds the values of the reset summary (spec/10_state.md R38). -/
def holdsReset (P : Params) (t : State) : Prop :=
  t.dec.stepIndex = P.initStepIndex ∧ t.dec.predicted = P.initPredicted ∧ t.dec.outValid = false ∧
  t.fr.cursor = 0 ∧ t.fr.phase = .high ∧ t.fr.payloadOffset = 0 ∧ t.fr.mode = .raw ∧ t.fr.busy = false ∧ t.fr.status = .none ∧
  t.wr.sampleRate = 15625#32 ∧ t.wr.sampleCount = 0

/-- A step performs the selected command's meaning, and beside every command but RESET and FRAMER_START the framer, the writer
and the sink make their own edge. -/
def performsCommands (P : Params) (ex : Meaning) (st : State → Host.Outcome State Fault Refusal) : Prop :=
  ∀ s s0 s1 i, placeBuffer s = .ok s0 → fetch s0 = .ok i → ex i s0 = .next s1 →
    ∃ t, st s = .next t ∧ t.dec = s1.dec ∧ t.input = s0.input ∧ t.later = s0.later.tail ∧
      (i = .reset ∨ i = .framerStart → t.fr = s1.fr ∧ t.wr = s1.wr ∧ t.sink = s1.sink) ∧
      (i ≠ .reset → i ≠ .framerStart → t.fr = framerTick P s0 ∧ t.wr = writerTick P s0 ∧ t.sink = sinkTick s0) ∧
      t.now = (match s0.later with | [] => releaseDrive s0.now | d :: _ => d)

/-- The number a little-endian byte string stands for (spec/20_memory.md R45). -/
def leValue : List Byte → Nat
  | [] => 0
  | b :: bs => b.toNat + 256 * leValue bs

/-- The blocks' registers, the buffer and the sink of two states agree; their pins may differ. -/
def sameBlocks (s t : State) : Prop :=
  s.dec = t.dec ∧ s.fr = t.fr ∧ s.wr = t.wr ∧ s.input = t.input ∧ s.sink = t.sink

/-- Every byte of the input buffer reads as before, and the buffer, the sink and the pins are the same. -/
def outsideUnchanged (s t : State) : Prop :=
  (∀ a, Memory.read t.input a = Memory.read s.input a) ∧ t.input = s.input ∧ t.sink = s.sink ∧ t.now = s.now ∧ t.later = s.later

end Sys2Proof.Machine

/-- Rests on R60, R66, R67, R68, 30_encoding.md section 3. As 4-bit and as 8-bit table words, 0x0 to 0xF decode to
DEC.P0 to DEC.N7 in the order of the opcode map; every code decodes to a well-formed instruction; a word with a bit
above bit 3 is refused. (That wider words are refused is the model's reading: log 21.) -/
def Obligations.TableWordsDecodeToTheirCodes : Prop :=
  (∀ k, k = 4 ∨ k = 8 →
    decodeTableWord k 0x0 = some .decP0 ∧
    decodeTableWord k 0x1 = some .decP1 ∧
    decodeTableWord k 0x2 = some .decP2 ∧
    decodeTableWord k 0x3 = some .decP3 ∧
    decodeTableWord k 0x4 = some .decP4 ∧
    decodeTableWord k 0x5 = some .decP5 ∧
    decodeTableWord k 0x6 = some .decP6 ∧
    decodeTableWord k 0x7 = some .decP7 ∧
    decodeTableWord k 0x8 = some .decN0 ∧
    decodeTableWord k 0x9 = some .decN1 ∧
    decodeTableWord k 0xA = some .decN2 ∧
    decodeTableWord k 0xB = some .decN3 ∧
    decodeTableWord k 0xC = some .decN4 ∧
    decodeTableWord k 0xD = some .decN5 ∧
    decodeTableWord k 0xE = some .decN6 ∧
    decodeTableWord k 0xF = some .decN7) ∧
  (∀ n, (decodeCode n).wellFormed = true) ∧
  (∀ k w, 16 ≤ w → decodeTableWord k w = none)

/-- Rests on R66, R70, R71, 30_encoding.md section 3 and 4. For every well-formed instruction, decoding its encoded port
lines answers it; for every 4-bit code, the instruction decoded from it has that code; two instructions with the
same code are the same. START's place beside INIT in the priority is the model's (log 9). -/
def Obligations.EncodedCommandsDecodeBack : Prop :=
  (∀ i : Instr, i.wellFormed = true → decodeCommand (encode i) = i) ∧
  (∀ n, encodeCode (decodeCode n) = some n) ∧
  (∀ i j n, encodeCode i = some n → encodeCode j = some n → i = j)

/-- Rests on R70. For every state with busy = 0 and start = 0, the command selected is RESET if rst, else INIT if init,
else the code on in_nibble if in_valid, else IDLE; in_nibble is ignored under init. With busy = 0 and start = 1 it
is RESET if rst, else FRAMER_START, which does the decoder's INIT (its rank is the model's: log 9). With busy = 1 it
is RESET if rst, else in the feed loop the code of the nibble the framer drives, else IDLE (that the pins are then
not connected is the model's: log 9). -/
def Obligations.EdgeCommandFollowsThePriority : Prop :=
  (∀ s : State, s.fr.busy = false → s.now.pins.start = false →
    fetch s = .ok (if s.now.pins.rst then .reset else if s.now.pins.init then .init
      else if s.now.pins.inValid then decodeCode s.now.pins.inNibble else .idle)) ∧
  (∀ s : State, s.fr.busy = false → s.now.pins.start = true →
    fetch s = .ok (if s.now.pins.rst then .reset else .framerStart)) ∧
  (∀ s : State, s.fr.busy = true → s.fr.stage ≠ .feed → fetch s = .ok (if s.now.pins.rst then .reset else .idle)) ∧
  (∀ (s : State) (n : Nibble), s.fr.busy = true → s.fr.stage = .feed → feedNibble s = .ok n →
    fetch s = .ok (if s.now.pins.rst then .reset else decodeCode n))

/-- Formalises R46, R61. For every byte, the first nibble is (byte >> 4) & 0xF and the second byte & 0xF, and packing
them gives the byte back; packing any two nibbles and splitting gives them back; a string of bytes gives twice as
many nibbles, numbers 2k and 2k+1 being the high and the low nibble of byte k. -/
def Obligations.BytesCarryTwoNibblesHighFirst : Prop :=
  (∀ b : Byte, (highNibble b).toNat = b.toNat / 16 % 16 ∧ (lowNibble b).toNat = b.toNat % 16 ∧
    packNibbles (highNibble b) (lowNibble b) = b) ∧
  (∀ hi lo : Nibble, highNibble (packNibbles hi lo) = hi ∧ lowNibble (packNibbles hi lo) = lo) ∧
  (∀ bs : List Byte, (nibblesOf bs).length = 2 * bs.length ∧
    ∀ k (h : k < bs.length), (nibblesOf bs)[2 * k]? = some (highNibble bs[k]) ∧
      (nibblesOf bs)[2 * k + 1]? = some (lowNibble bs[k]))

/-- Formalises R83. For every code n and every state, the instruction of n answers the next state in which step_index is
clamp(i + delta[n], 0, 48), predicted_sample is clamp(p plus or minus d, -2048, 2047) with d the sum of the floors
of the old index's step size, out_valid is 1, the sample is 16 times the new predictor, and everything outside the
decoder is as before. It holds of the machine this model runs and of the machine of every build. -/
def Obligations.EveryCodeIsDecodeNibble : Prop :=
  codesDecode Config.build exec ∧ ∀ P, codesDecode P (execOn P)

/-- Formalises R96, R97, R98, R99, R100, R101, R102, R103. For each of the eight adding codes: from every state it
completes with the clamped index, the predictor plus its own magnitude d clamped, out_valid 1, the sample, and
nothing else changed; d runs over the stated range under the default table; the worked examples from (0, 0) and (10,
100) hold. The default tables are the build's (logs 1, 2). -/
def Obligations.AddingCodesFollowTheirRules : Prop :=
  codeRule .decP0 0 false (fun s => s / 8) 2 194 0 2 32 9 105 1680 ∧
  codeRule .decP1 1 false (fun s => s / 4 + s / 8) 6 582 0 6 96 9 115 1840 ∧
  codeRule .decP2 2 false (fun s => s / 2 + s / 8) 10 970 0 10 160 9 125 2000 ∧
  codeRule .decP3 3 false (fun s => s / 2 + s / 4 + s / 8) 14 1358 0 14 224 9 135 2160 ∧
  codeRule .decP4 4 false (fun s => s + s / 8) 18 1746 2 18 288 12 146 2336 ∧
  codeRule .decP5 5 false (fun s => s + s / 4 + s / 8) 22 2134 4 22 352 14 156 2496 ∧
  codeRule .decP6 6 false (fun s => s + s / 2 + s / 8) 26 2522 6 26 416 16 166 2656 ∧
  codeRule .decP7 7 false (fun s => s + s / 2 + s / 4 + s / 8) 30 2910 8 30 480 18 176 2816

/-- Formalises R104, R105, R106, R107, R108, R109, R110, R111. For each of the eight subtracting codes: from every state
it completes with the clamped index, the predictor minus its own magnitude d clamped, out_valid 1, the sample, and
nothing else changed; d runs over the stated range under the default table; the worked examples from (0, 0) and (10,
100) hold. The default tables are the build's (logs 1, 2). -/
def Obligations.SubtractingCodesFollowTheirRules : Prop :=
  codeRule .decN0 8 true (fun s => s / 8) 2 194 0 (-2) (-32) 9 95 1520 ∧
  codeRule .decN1 9 true (fun s => s / 4 + s / 8) 6 582 0 (-6) (-96) 9 85 1360 ∧
  codeRule .decN2 10 true (fun s => s / 2 + s / 8) 10 970 0 (-10) (-160) 9 75 1200 ∧
  codeRule .decN3 11 true (fun s => s / 2 + s / 4 + s / 8) 14 1358 0 (-14) (-224) 9 65 1040 ∧
  codeRule .decN4 12 true (fun s => s + s / 8) 18 1746 2 (-18) (-288) 12 54 864 ∧
  codeRule .decN5 13 true (fun s => s + s / 4 + s / 8) 22 2134 4 (-22) (-352) 14 44 704 ∧
  codeRule .decN6 14 true (fun s => s + s / 2 + s / 8) 26 2522 6 (-26) (-416) 16 34 544 ∧
  codeRule .decN7 15 true (fun s => s + s / 2 + s / 4 + s / 8) 30 2910 8 (-30) (-480) 18 24 384

/-- Rests on R24, R82, R85, R86, R88, R91. For every build, decoder state and code: the new step_index is clamp(i +
delta) in the integers and lies in 0..48, the new predictor is clamp(p plus or minus d) in the integers and lies in
-2048..2047. A sum inside its bounds is held unchanged, in both registers. -/
def Obligations.RegistersHoldTheClampedExactSums : Prop :=
  ∀ (P : Params) (d : Decoder) (n : Nibble),
    decodedBy d (decodeNibble P d n) (P.indexDelta.get n.toFin) (magnitude (P.stepSize.get d.stepIndex) n) (signBit n) ∧
    (decodeNibble P d n).stepIndex.val ≤ 48 ∧
    -2048 ≤ (decodeNibble P d n).predicted.toInt ∧ (decodeNibble P d n).predicted.toInt ≤ 2047 ∧
    (∀ v : Int, v = (d.stepIndex.val : Int) + P.indexDelta.get n.toFin → 0 ≤ v → v ≤ 48 →
      ((decodeNibble P d n).stepIndex.val : Int) = v) ∧
    (∀ v : Int, v = (if signBit n then d.predicted.toInt - magnitude (P.stepSize.get d.stepIndex) n
        else d.predicted.toInt + magnitude (P.stepSize.get d.stepIndex) n) → -2048 ≤ v → v ≤ 2047 →
      (decodeNibble P d n).predicted.toInt = v)

/-- Formalises R65. For every build, decoder state and magnitude m there is one d, 0 or more, the magnitude of both
codes, such that code m gives clamp(p + d) and code m+8 gives clamp(p - d); where the two delta entries are equal,
the new indexes are equal too. -/
def Obligations.OppositeSignsMoveOppositely : Prop :=
  ∀ (P : Params) (d : Decoder) (m : Nibble), m.toNat < 8 →
    (let mag := magnitude (P.stepSize.get d.stepIndex) m
     mag = magnitude (P.stepSize.get d.stepIndex) (m + 8#4) ∧
     (decodeNibble P d m).predicted.toInt = clamp (d.predicted.toInt + mag) (-2048) 2047 ∧
     (decodeNibble P d (m + 8#4)).predicted.toInt = clamp (d.predicted.toInt - mag) (-2048) 2047) ∧
    (P.indexDelta.get m.toFin = P.indexDelta.get (m + 8#4).toFin →
      (decodeNibble P d m).stepIndex = (decodeNibble P d (m + 8#4)).stepIndex)

/-- Rests on R81, R89. Two decodes of one code from one index give the same new index whatever the predictor and the
step table, and, from one index and predictor with one step table, the same predictor whatever the delta table: the
step size used is the old index's. -/
def Obligations.IndexAndPredictorUpdateApart : Prop :=
  ∀ (P Q : Params) (d e : Decoder) (n : Nibble), d.stepIndex = e.stepIndex →
    (P.indexDelta = Q.indexDelta → (decodeNibble P d n).stepIndex = (decodeNibble Q e n).stepIndex) ∧
    (P.stepSize = Q.stepSize → d.predicted = e.predicted →
      (decodeNibble P d n).predicted = (decodeNibble Q e n).predicted)

/-- Formalises R62. For every predictor value the 16-bit sample has the value 16 times it, low bits 0 and high bits
equal to the predictor, and lies in -32768..32752; for every integer k in -2048..2047 the sample 16k occurs. -/
def Obligations.SampleIsSixteenTimesThePredictor : Prop :=
  (∀ p : Predictor, (sampleOf p).toInt = 16 * p.toInt ∧ (sampleOf p).extractLsb' 0 4 = 0#4 ∧
    (sampleOf p).extractLsb' 4 12 = p ∧ -32768 ≤ (sampleOf p).toInt ∧ (sampleOf p).toInt ≤ 32752) ∧
  (∀ k : Int, -2048 ≤ k → k ≤ 2047 → ∃ p : Predictor, (sampleOf p).toInt = 16 * k)

/-- Rests on R92, 95_test_vectors.md section 2.3. With a step size of at least 8, a subtracting code takes a predictor
at 2047 below it and an adding code takes one at -2048 above it; from (48, 2047) DEC.N0 gives (47, 1853) under the
build's default tables (logs 1, 2). -/
def Obligations.ClampedPredictorLeavesTheRail : Prop :=
  (∀ (P : Params) (d : Decoder) (n : Nibble), 8 ≤ P.stepSize.get d.stepIndex →
    (signBit n = true → d.predicted.toInt = 2047 → (decodeNibble P d n).predicted.toInt < 2047) ∧
    (signBit n = false → d.predicted.toInt = -2048 → -2048 < (decodeNibble P d n).predicted.toInt)) ∧
  (∀ s : State, s.dec.stepIndex = 48 → s.dec.predicted.toInt = 2047 →
    ∃ t, exec .decN0 s = .next t ∧ t.dec.stepIndex = 47 ∧ t.dec.predicted.toInt = 1853)

/-- Rests on R83, 90_conflicts.md C1, 95_test_vectors.md section 2.8. For every build, decoder state and length, a run
of 0x0 nibbles leaves the predictor at least where it was; under the build's defaults (logs 1 to 3) the run of k
from the initial state ends at (0, min(2k, 2047)). -/
def Obligations.AllZeroNibblesNeverFall : Prop :=
  (∀ (P : Params) (d : Decoder) (k : Nat),
    d.predicted.toInt ≤ (decodeNibbles P d (List.replicate k 0#4)).1.predicted.toInt) ∧
  (∀ k : Nat, (decodeNibbles Config.build (Decoder.initial Config.build) (List.replicate k 0#4)).1.stepIndex = 0 ∧
    (decodeNibbles Config.build (Decoder.initial Config.build) (List.replicate k 0#4)).1.predicted.toInt = min (2 * (k : Int)) 2047)

/-- Rests on R47, R80, R128, R129. For every build, decoder state and nibble sequence there are as many samples as
nibbles; decoding two sequences one after the other is decoding their concatenation; the last sample is 16 times the
final predictor. -/
def Obligations.OneSamplePerNibbleInOrder : Prop :=
  ∀ (P : Params) (d : Decoder) (as bs : List Nibble),
    (decodeNibbles P d as).2.length = as.length ∧
    decodeNibbles P d (as ++ bs) =
      ((decodeNibbles P (decodeNibbles P d as).1 bs).1,
       (decodeNibbles P d as).2 ++ (decodeNibbles P (decodeNibbles P d as).1 bs).2) ∧
    (as ≠ [] → (decodeNibbles P d as).2.getLast? = some (sampleOf (decodeNibbles P d as).1.predicted))

/-- Formalises R93. From every state INIT answers the next state whose step_index and predicted_sample are the
parameters P_INIT_STEP_INDEX and P_INIT_PREDICTED and whose out_valid is 0, everything else as before; a START with
no file in progress leaves the decoder with the same values before the file's first nibble. It holds of the machine
this model runs and of the machine of every build. -/
def Obligations.InitClearsTheDecoder : Prop :=
  initClears Config.build exec ∧ ∀ P, initClears P (execOn P)

/-- Rests on R38, R94. From every state RESET answers the next state with the decoder's initial values, out_valid 0,
cursor 0, phase high, payload_offset 0, mode RAW, busy 0, status NONE, SAMPLE_RATE 15625 and sample_count 0;
whenever rst is 1, in a file or not, the command selected is RESET. It keeps the buffer, the sink and the pins
(which R38 and R94 do not say; the model's choice: logs 16, 26). It holds of the machine this model runs and of the
machine of every build. -/
def Obligations.ResetLoadsEveryListedValue : Prop :=
  (∀ s, ∃ t, exec .reset s = .next t ∧ holdsReset Config.build t ∧ outsideUnchanged s t) ∧
  (∀ P s, ∃ t, execOn P .reset s = .next t ∧ holdsReset P t ∧ outsideUnchanged s t) ∧
  (∀ s, s.now.pins.rst = true → fetch s = .ok .reset)

/-- Formalises R200. The machine's reset state has step_index 0, predicted_sample 0, out_valid 0, cursor 0, phase high,
payload_offset 0, mode RAW, busy 0, status NONE, SAMPLE_RATE 15625, no sample buffered and nothing staged (the
values of the initial registers are parameter defaults: log 3). In the machine of every build the reset state holds
that build's initial values and the same others. -/
def Obligations.ResetStateHoldsTheListedValues : Prop :=
  (State.reset.dec.stepIndex = 0 ∧ State.reset.dec.predicted = 0#12 ∧ State.reset.dec.outValid = false ∧
  State.reset.fr.cursor = 0 ∧ State.reset.fr.phase = .high ∧ State.reset.fr.payloadOffset = 0 ∧ State.reset.fr.mode = .raw ∧
  State.reset.fr.busy = false ∧ State.reset.fr.status = .none ∧
  State.reset.wr.sampleRate = 15625#32 ∧ State.reset.wr.sampleCount = 0 ∧ State.reset.wr.staging = []) ∧
  ∀ P, holdsReset P (State.resetOf P) ∧ (State.resetOf P).wr.staging = []

/-- Formalises R95. From every state IDLE answers the next state with step_index and predicted_sample unchanged,
out_valid 0 and everything else as before; a nibble decoded after any number of IDLE commands leaves the decoder as
it would without them. -/
def Obligations.IdleKeepsTheRegisters : Prop :=
  (∀ s, ∃ t, exec .idle s = .next t ∧ t = { s with dec := t.dec } ∧
    t.dec.stepIndex = s.dec.stepIndex ∧ t.dec.predicted = s.dec.predicted ∧ t.dec.outValid = false) ∧
  (∀ (k : Nat) (n : Nibble) (f : Nat → State), (∀ j, j < k → exec .idle (f j) = .next (f (j + 1))) →
    ∃ t u, exec (decodeCode n) (f k) = .next t ∧ exec (decodeCode n) (f 0) = .next u ∧ t.dec = u.dec)

/-- Rests on R20, R23, R83, R93, R95. For each of the sixteen nibble codes, INIT and IDLE, in the next state it answers
only step_index, predicted_sample and out_valid may differ: the framer's and the writer's registers, every byte of
the buffer, the sink and the pins are as before; IDLE keeps step_index and predicted_sample too. -/
def Obligations.DecoderCommandsLeaveEverythingElse : Prop :=
  ∀ (i : Instr) (s t : State), i ≠ .reset → i ≠ .framerStart → exec i s = .next t →
    t.fr = s.fr ∧ t.wr = s.wr ∧ outsideUnchanged s t ∧
    (i = .idle → t.dec.stepIndex = s.dec.stepIndex ∧ t.dec.predicted = s.dec.predicted)

/-- Rests on R40, R94, R120, R142. In the next state RESET or FRAMER_START answers, every byte of the buffer, the sink's
containers and the pins are as before; FRAMER_START also keeps cur_byte and w_ok, which no rule of START writes.
That RESET and START keep the sink is the model's (logs 16, 26), and so is that START keeps w_ok (log 19). -/
def Obligations.ResetAndStartLeaveBufferAndSink : Prop :=
  ∀ (i : Instr) (s t : State), i = .reset ∨ i = .framerStart → exec i s = .next t →
    outsideUnchanged s t ∧ (i = .framerStart → t.fr.curByte = s.fr.curByte ∧ t.wr.wOk = s.wr.wOk)

/-- Rests on R120, R142. At an edge with start = 1, busy = 0 and no RESET the command is FRAMER_START and dec_init is 1.
From every state with busy = 0 and rd_err = 0, FRAMER_START answers the next state with L and rd_err sampled, busy
1, status NONE, cursor 0, phase high, payload_offset 0, mode RAW, the decoder as INIT leaves it, and in the writer
sample_count 0, SAMPLE_RATE the port's value, w_done 0 and the staging empty. It keeps the buffer, the sink and the
pins (the model's choice for the sink: log 16); all of it happens at the START edge (log 10). -/
def Obligations.StartBeginsAFile : Prop :=
  (∀ s, s.fr.busy = false → s.now.pins.rst = false → s.now.pins.start = true → fetch s = .ok .framerStart ∧ decInit s = true) ∧
  ∀ s, s.fr.busy = false → s.now.pins.rdErr = false → ∃ t, exec .framerStart s = .next t ∧
    t.fr.len = s.now.pins.bufLen ∧ t.fr.rdErr = s.now.pins.rdErr ∧ t.fr.busy = true ∧ t.fr.status = .none ∧
    t.fr.cursor = 0 ∧ t.fr.phase = .high ∧ t.fr.payloadOffset = 0 ∧ t.fr.mode = .raw ∧
    t.dec = { stepIndex := Config.build.initStepIndex, predicted := Config.build.initPredicted, outValid := false } ∧
    t.wr.sampleCount = 0 ∧ t.wr.sampleBuf = [] ∧ t.wr.sampleRate = s.now.pins.sampleRate ∧ t.wr.wDone = false ∧ t.wr.staging = [] ∧
    outsideUnchanged s t

/-- Formalises R121. From every state with busy = 0 and rd_err = 1, FRAMER_START answers the next state with status
READ_FAILURE, done 1 and busy 0, the decoder as INIT leaves it, no sample buffered, nothing staged, the buffer and
the sink as before, whatever L is. -/
def Obligations.ReadFailureEndsTheFileAtOnce : Prop :=
  ∀ s, s.fr.busy = false → s.now.pins.rdErr = true → ∃ t, exec .framerStart s = .next t ∧
    t.fr.status = .readFailure ∧ t.fr.done = true ∧ t.fr.busy = false ∧ t.dec = Decoder.initial Config.build ∧
    t.wr.sampleBuf = [] ∧ t.wr.staging = [] ∧ outsideUnchanged s t

/-- Formalises R133. While busy = 1 FRAMER_START leaves the state as it is, the command selected is never FRAMER_START,
and a step with the start pin high does to the three blocks, the buffer and the sink what the step with it low does. -/
def Obligations.StartIsIgnoredWhileBusy : Prop :=
  (∀ s, s.fr.busy = true → exec .framerStart s = .next s) ∧
  (∀ s, s.fr.busy = true → fetch s ≠ .ok .framerStart) ∧
  (∀ s t, s.fr.busy = true → step s = .next t →
    ∀ b, ∃ u, step { s with now := { s.now with pins := { s.now.pins with start := b } } } = .next u ∧ sameBlocks t u)

/-- Rests on R128, R142, R177, R202. Two states with busy = 0, the same pins and the same buffer, whatever their earlier
files left in the decoder, the framer, the writer and the sink, answer FRAMER_START with the same decoder, the same
framer registers but cur_byte, and the same writer registers but w_ok; one of the two may be the state RESET leaves. -/
def Obligations.StartAfterAnyOutcomeIsAsAfterReset : Prop :=
  ∀ s u, s.fr.busy = false → u.fr.busy = false → s.now = u.now → s.input = u.input →
    ∃ t v, exec .framerStart s = .next t ∧ exec .framerStart u = .next v ∧ t.dec = v.dec ∧
      { t.fr with curByte := v.fr.curByte } = v.fr ∧ { t.wr with wOk := v.wr.wOk } = v.wr ∧
      (∃ r w, exec .reset s = .next r ∧ exec .framerStart r = .next w ∧ w.dec = t.dec ∧
        { w.fr with curByte := t.fr.curByte } = t.fr ∧ { w.wr with wOk := t.wr.wOk } = t.wr)

/-- Rests on R69, R70. When the caller's buffer can be placed, giving s0, the command selected at s0 is i and i's
meaning answers s1, the step answers s1 with, unless i is RESET or FRAMER_START, the framer, writer and sink after
their own edge from s0, and then the next edge's pins (logs 7, 8). It holds of the machine this model runs and of
the machine of every build. -/
def Obligations.StepPerformsTheSelectedCommand : Prop :=
  performsCommands Config.build exec step ∧ ∀ P, performsCommands P (execOn P) (stepOn P)

/-- Rests on R69, R70, R90, R201. For every state and 4-bit word, after withFetchWord the step answers a next state
whose decoder is the one the instruction decoded from the word leaves, with the framer's registers but busy and done
kept (how a word is presented is the model's: log 20). -/
def Obligations.PresentedNibbleIsPerformed : Prop :=
  ∀ (s : State) (nbits w : Nat) (i : Instr), nbits ≠ 0 → w < 16 → decodeTableWord nbits w = some i →
    ∃ t u, exec i s = .next u ∧ step (s.withFetchWord nbits w) = .next t ∧ t.dec = u.dec ∧
      t.fr = { s.fr with busy := false, done := false }

/-- Rests on R127, R212. In a file's feed loop with no RESET, no injected abort and the buffer kept: with phase high and
cursor below L the step decodes the high nibble of the byte at cursor, loads cur_byte with that byte and turns to
phase low; with phase low it decodes the low nibble of cur_byte, moves cursor on by one, turns to phase high, and
stays in the loop exactly when the new cursor is below L. The file stays in progress. That every edge of the loop
feeds one nibble, and the edge at which the loop is left, is the model's schedule (log 7). -/
def Obligations.FeedLoopDecodesHighThenLow : Prop :=
  ∀ s, s.fr.busy = true → s.fr.stage = .feed → s.now.pins.rst = false → s.now.place = none → s.now.abort = false →
    (s.fr.phase = .high → s.fr.cursor < s.fr.len.toNat →
      ∃ t, step s = .next t ∧ t.dec = decodeNibble Config.build s.dec (highNibble (Memory.read s.input s.fr.cursor)) ∧
        t.fr = { s.fr with curByte := Memory.read s.input s.fr.cursor, phase := .low, done := false }) ∧
    (s.fr.phase = .low →
      ∃ t, step s = .next t ∧ t.dec = decodeNibble Config.build s.dec (lowNibble s.fr.curByte) ∧
        t.fr = { s.fr with cursor := s.fr.cursor + 1, phase := .high, done := false,
                           stage := if s.fr.cursor + 1 < s.fr.len.toNat then .feed else .drain })

/-- Rests on R122, R123, R212. In header stage k with no RESET and the buffer kept, the step answers a next state with
step_index and predicted_sample kept and out_valid 0. If k is below L and the byte at k is SIG[k]: before the last
byte the test goes on with k+1; at the last byte the mode is HEADERED with payload_offset 32. Otherwise the mode is
RAW with payload_offset 0. The one-byte-an-edge schedule is the model's (log 7). -/
def Obligations.HeaderTestComparesByteByByte : Prop :=
  ∀ s (k : Fin 7), s.fr.busy = true → s.fr.stage = .header k → s.now.pins.rst = false → s.now.place = none →
    ∃ t, step s = .next t ∧ t.dec = { s.dec with outValid := false } ∧ t.fr.cursor ≤ max s.fr.cursor 32 ∧
      (k.val < s.fr.len.toNat ∧ Memory.read s.input k.val = Config.headerSignature.get k → k.val < 6 →
        ∃ k' : Fin 7, k'.val = k.val + 1 ∧ t.fr = { s.fr with stage := .header k', done := false }) ∧
      (k.val < s.fr.len.toNat ∧ Memory.read s.input k.val = Config.headerSignature.get k → k.val = 6 →
        t.fr.mode = .headered ∧ t.fr.payloadOffset = 32) ∧
      (¬ (k.val < s.fr.len.toNat ∧ Memory.read s.input k.val = Config.headerSignature.get k) →
        t.fr.mode = .raw ∧ t.fr.payloadOffset = 0)

/-- Rests on R125, R126. At the header edge that settles the mode, with off = 0 or 32 and P = L - off: P at most 0 ends
the file with SKIPPED_EMPTY, P above P_MAX_PAYLOAD_BYTES ends it with WRITE_FAILURE, each with done 1, busy 0, no
nibble decoded and the sink as before; otherwise the feed loop begins at cursor = off. That status, done and busy
change at the very edge of the last signature comparison is the model's schedule (log 7). -/
def Obligations.EmptyAndOversizePayloadsEndBeforeDecoding : Prop :=
  ∀ s (k : Fin 7) (off : Nat), s.fr.busy = true → s.fr.stage = .header k → s.now.pins.rst = false → s.now.place = none →
    s.wr.stage = .idle →
    ((off = 32 ∧ k.val = 6 ∧ k.val < s.fr.len.toNat ∧ Memory.read s.input k.val = Config.headerSignature.get k) ∨
     (off = 0 ∧ ¬ (k.val < s.fr.len.toNat ∧ Memory.read s.input k.val = Config.headerSignature.get k))) →
    ∃ t, step s = .next t ∧ t.sink = s.sink ∧ t.dec.stepIndex = s.dec.stepIndex ∧ t.dec.predicted = s.dec.predicted ∧
      ((s.fr.len.toNat : Int) - off ≤ 0 →
        t.fr.status = .skippedEmpty ∧ t.fr.done = true ∧ t.fr.busy = false) ∧
      ((Config.build.maxPayloadBytes : Int) < (s.fr.len.toNat : Int) - off →
        t.fr.status = .writeFailure ∧ t.fr.done = true ∧ t.fr.busy = false) ∧
      (0 < (s.fr.len.toNat : Int) - off → (s.fr.len.toNat : Int) - off ≤ Config.build.maxPayloadBytes →
        t.fr.stage = .feed ∧ t.fr.busy = true ∧ t.fr.cursor = off)

/-- Rests on R130, R132, R174. While the framer waits, with no RESET and the buffer kept: with w_done = 1 the step sets
status to OK if w_ok = 1 and no abort was injected, PARTIAL_DECODE if w_ok = 1 and one was, WRITE_FAILURE if w_ok =
0, with done 1 and busy 0; with w_done = 0 the framer goes on waiting. -/
def Obligations.FileEndsOnTheWritersResult : Prop :=
  ∀ s, s.fr.busy = true → s.fr.stage = .wait → s.now.pins.rst = false → s.now.place = none →
    ∃ t, step s = .next t ∧
      (s.wr.wDone = true → t.fr.done = true ∧ t.fr.busy = false ∧
        t.fr.status = (if s.wr.wOk then (if s.fr.aborted then .partialDecode else .ok) else .writeFailure)) ∧
      (s.wr.wDone = false → t.fr = { s.fr with done := false })

/-- Rests on R131, R154. In the feed loop with an injected abort, no RESET, the buffer kept and, at phase high, cursor
below L: the step decodes the current nibble, marks the file as aborted, leaves the loop for the last append, and
drops no buffered sample. (That the model admits the abort is its choice: log 15.) -/
def Obligations.InjectedAbortStopsAfterTheNibble : Prop :=
  ∀ s, s.fr.busy = true → s.fr.stage = .feed → s.now.pins.rst = false → s.now.place = none → s.now.abort = true →
    (s.fr.phase = .high → s.fr.cursor < s.fr.len.toNat) →
    ∃ t n, step s = .next t ∧ feedNibble s = .ok n ∧ t.dec = decodeNibble Config.build s.dec n ∧
      t.fr.aborted = true ∧ t.fr.stage = .drain ∧ t.fr.busy = true ∧ s.wr.sampleBuf <+: t.wr.sampleBuf

/-- Rests on R42. For every buffer, L and offset, MemRead answers the byte below L and the fault at or beyond L; a step
in the feed loop at phase high with cursor at or beyond L, no RESET and the buffer kept, faults by that name. (That
no run reaches it follows from the framer's invariant.) -/
def Obligations.ReadsBeyondTheBufferFault : Prop :=
  (∀ m len a, (a < len.toNat → memRead m len a = .ok (Memory.read m a)) ∧
    (len.toNat ≤ a → memRead m len a = .error .inputReadOutOfRange)) ∧
  (∀ s, s.fr.busy = true → s.fr.stage = .feed → s.fr.phase = .high → s.fr.len.toNat ≤ s.fr.cursor →
    s.now.pins.rst = false → s.now.place = none → step s = .fault .inputReadOutOfRange)

/-- Rests on R204, 93_implementation_defined.md U14. With busy = 1, no RESET and a buffer placed, the step is refused by
name; whenever a step is refused, busy is 1, rst is 0 and a buffer is placed. (That RESET lets a buffer be placed is
the model's: log 14.) -/
def Obligations.BufferChangeDuringAFileIsRefused : Prop :=
  (∀ s m, s.fr.busy = true → s.now.pins.rst = false → s.now.place = some m → step s = .refused .bufferChangedDuringFile) ∧
  (∀ s r, step s = .refused r → s.fr.busy = true ∧ s.now.pins.rst = false ∧ s.now.place ≠ none)

/-- Rests on R42, R126, R176. From every state that meets the framer's invariant, with a caller that places no buffer
during a file, the step answers a next state: no read is out of range and nothing is refused. -/
def Obligations.NoFaultInsideTheInvariant : Prop :=
  ∀ s, framerInv Config.build s → callerKeepsBuffer s → safeStep s

/-- Formalises R90. For every step that goes on, with s0 the state after the buffer is placed and i the command
selected: if i has a nibble code, out_valid is 1 and out_sample is 16 times the new predictor in the following
cycle; if i is INIT, RESET, IDLE or a taken START, out_valid is 0. -/
def Obligations.OutValidMarksTheDecodeEdge : Prop :=
  ∀ s s0 i t, placeBuffer s = .ok s0 → fetch s0 = .ok i → step s = .next t →
    (encodeCode i ≠ none → t.dec.outValid = true ∧ (outSample t.dec).toInt = 16 * t.dec.predicted.toInt) ∧
    (encodeCode i = none → t.dec.outValid = false)

/-- Rests on R23, R32. For every step that goes on, step_index and predicted_sample are as before unless rst is 1, or a
nibble is fed by the framer, or with no file in progress start, init or in_valid is 1. That the pins init and
in_valid change nothing while busy = 1 is the model's choice (log 9). -/
def Obligations.OnlyCommandsWriteTheDecoder : Prop :=
  ∀ s t, step s = .next t → s.now.pins.rst = false → (s.fr.busy = true → s.fr.stage ≠ .feed) →
    (s.fr.busy = false → s.now.pins.start = false ∧ s.now.pins.init = false ∧ s.now.pins.inValid = false) →
    t.dec.stepIndex = s.dec.stepIndex ∧ t.dec.predicted = s.dec.predicted

/-- Rests on R132, R170, R179, R182. For every step that goes on: if done is 1 after it, busy is 0 and status is not
NONE; if a file was in progress and busy is 0 after it without RESET, done is 1; if no file was in progress and
neither rst nor start is 1, the framer's registers are kept and done is 0. -/
def Obligations.OutcomesPulseDoneOnceAndHold : Prop :=
  ∀ s t, step s = .next t →
    (t.fr.done = true → t.fr.busy = false ∧ t.fr.status ≠ .none) ∧
    (s.fr.busy = true → s.now.pins.rst = false → t.fr.busy = false → t.fr.done = true) ∧
    (s.fr.busy = false → s.now.pins.rst = false → s.now.pins.start = false → t.fr = { s.fr with done := false })

/-- Rests on R133, R144, R210. While busy = 1 and rst = 0, replacing the pins by any pins with rst = 0 and the same
sink_err changes nothing of what the step does to the three blocks, the buffer and the sink. (That the decoder's own
pins are not connected during a file is the model's: log 9.) -/
def Obligations.PortsAreSampledOnlyAtStart : Prop :=
  ∀ s t (p : Pins), s.fr.busy = true → s.now.pins.rst = false → p.rst = false → p.sinkErr = s.now.pins.sinkErr →
    step s = .next t →
    ∃ u, step { s with now := { s.now with pins := p } } = .next u ∧ sameBlocks t u

/-- Rests on R131, R174, R180. For every step that goes on, if status becomes PARTIAL_DECODE then the file was marked as
aborted and the writer's w_ok was 1; and the abort mark is set only at an edge with an injected abort. -/
def Obligations.PartialDecodeNeedsAnInjectedAbort : Prop :=
  ∀ s t, step s = .next t →
    (t.fr.status = .partialDecode → s.fr.status ≠ .partialDecode → s.fr.aborted = true ∧ s.wr.wOk = true) ∧
    (t.fr.aborted = true → s.fr.aborted = false → s.now.abort = true)

/-- Rests on R141, R208. For every step that goes on without RESET and without a taken START: with out_valid = 1 before
the edge and the buffer below its capacity, the sample list grows by the old out_sample at its end and sample_count
by 1; with out_valid = 0 it is unchanged. (A START at the same edge empties the buffer, and a full buffer drops the
sample: log 11.) -/
def Obligations.WriterAppendsEachSampleOnce : Prop :=
  ∀ s t, step s = .next t → s.now.pins.rst = false → (s.fr.busy = false → s.now.pins.start = false) →
    (s.dec.outValid = true → s.wr.sampleCount < sampleCapacity Config.build →
      t.wr.sampleBuf = s.wr.sampleBuf ++ [outSample s.dec] ∧ t.wr.sampleCount = s.wr.sampleCount + 1) ∧
    (s.dec.outValid = false → t.wr.sampleBuf = s.wr.sampleBuf)

/-- Rests on R36, R144. For every step that goes on without RESET and without a taken START, SAMPLE_RATE is as before;
after a START with no file in progress it is the port's value, after a RESET 15625. -/
def Obligations.SampleRateChangesOnlyAtStartOrReset : Prop :=
  ∀ s t, step s = .next t →
    (s.now.pins.rst = false → (s.fr.busy = true ∨ s.now.pins.start = false) → t.wr.sampleRate = s.wr.sampleRate) ∧
    (s.now.pins.rst = false → s.fr.busy = false → s.now.pins.start = true → t.wr.sampleRate = s.now.pins.sampleRate) ∧
    (s.now.pins.rst = true → t.wr.sampleRate = 15625#32)

/-- Rests on R40, 20_memory.md section 1. For every state whose buffer and whose caller's buffers are in canonical form,
a step that goes on leaves them so. The canonical form (offsets rising, no listed byte 0x00) is the model's (log
13). -/
def Obligations.EveryStepKeepsBuffersCanonical : Prop :=
  ∀ s t, bufferInv s → step s = .next t → bufferInv t

/-- Rests on R34, R42, R122, R126, R127. From every state that meets the framer's invariant (payload_offset fits mode,
cursor at most L, status NONE and done 0 during a file, phase high and the matched signature bytes in the buffer
during the header test, and in the feed loop payload_offset at most cursor below L with a payload within the bound,
mode HEADERED exactly when the signature is there, cur_byte the byte at cursor at phase low) a step that goes on
answers a state that meets it. -/
def Obligations.EveryStepKeepsTheFramersRegistersConsistent : Prop :=
  ∀ s t, framerInv Config.build s → step s = .next t → framerInv Config.build t

/-- Rests on R129, R141, R153. From every state that meets the count invariant (in the feed loop the samples buffered,
with one on out_sample, number the nibbles fed; at the finish and while waiting, if no abort was injected,
sample_count is 2P) a step that goes on answers a state that meets it. -/
def Obligations.EveryStepKeepsTheSampleCount : Prop :=
  ∀ s t, countInv Config.build s → step s = .next t → countInv Config.build t

/-- Rests on R45, R141, R150, R152. From every state that meets the writer's invariant (sample_count within the
capacity; staging empty when the writer is idle; while it stages, the framer waits, the rate is legal, and the
staging is a beginning of the container image of the buffered samples) a step that goes on answers a state that
meets it. -/
def Obligations.EveryStepKeepsTheStagingAPartOfTheImage : Prop :=
  ∀ s t, writerInv Config.build s → step s = .next t → writerInv Config.build t

/-- Rests on R62, R141. From every state whose buffered samples all have bits 3..0 equal to 0, a step that goes on
answers such a state. -/
def Obligations.EveryStepKeepsSamplesMultiplesOfSixteen : Prop :=
  ∀ s t, samplesInv s → step s = .next t → samplesInv t

/-- Rests on R38, R200. The machine's reset state meets the buffer, framer, count, writer and sample invariants. -/
def Obligations.ResetMeetsEveryInvariant : Prop :=
  bufferInv State.reset ∧ framerInv Config.build State.reset ∧ countInv Config.build State.reset ∧
  writerInv Config.build State.reset ∧ samplesInv State.reset

/-- Rests on R45, R53, R151. From every state that meets the writer's invariant, a step that goes on leaves the sink as
it was, or adds exactly the whole container image of the buffered samples at the legal SAMPLE_RATE, and then only
with sink_err = 0 and no RESET, the writer reporting w_done = 1 and w_ok = 1; and it reports w_done with w_ok = 1
only then. That no commit happens at a RESET edge is the model's choice (log 26), and that w_done is set at the
commit edge its schedule (log 7). -/
def Obligations.SinkGetsWholeImagesOnly : Prop :=
  ∀ s t, writerInv Config.build s → step s = .next t →
    (t.sink = s.sink ∧ ¬ (t.wr.wDone = true ∧ t.wr.wOk = true) ∨
     t.sink = s.sink ++ [containerImage Config.build s.wr.sampleRate s.wr.sampleBuf] ∧ rateLegal s.wr.sampleRate = true ∧
       s.now.pins.sinkErr = false ∧ s.now.pins.rst = false ∧ t.wr.wDone = true ∧ t.wr.wOk = true)

/-- Rests on R143, R150, R175. In the finish stage with an idle writer, no RESET and the buffer kept: a SAMPLE_RATE of 0
or of 2^31 and more gives w_done 1 and w_ok 0 with the staging as it was; a rate from 1 to 2^31-1 gives w_done 0 and
one byte more in staging; the sink is as before in both cases. That the first byte is staged, or the failure
reported, at the FINISH edge itself is the model's schedule (log 7). -/
def Obligations.IllegalRateCommitsNothing : Prop :=
  ∀ s, s.fr.busy = true → s.fr.stage = .finish → s.wr.stage = .idle → s.now.pins.rst = false → s.now.place = none →
    ∃ t, step s = .next t ∧ t.sink = s.sink ∧
      (s.wr.sampleRate.toNat = 0 ∨ 2 ^ 31 ≤ s.wr.sampleRate.toNat →
        t.wr.wDone = true ∧ t.wr.wOk = false ∧ t.wr.staging = s.wr.staging ∧ t.wr.stage = .idle) ∧
      (1 ≤ s.wr.sampleRate.toNat → s.wr.sampleRate.toNat ≤ 2 ^ 31 - 1 →
        t.wr.wDone = false ∧ t.wr.staging.length = s.wr.staging.length + 1 ∧ t.wr.stage = .staging)

/-- Rests on R130, R141, R150, R151, R152, R212. With the whole image staged, no RESET and the buffer kept, the step
pulses w_done, sets w_ok to 1 exactly when sink_err = 0, returns the writer to idle with nothing staged, keeps
sample_buf where out_valid = 0, and gives the sink the staging when sink_err = 0 and nothing otherwise. At every
other edge with no RESET the sink is as before. While the image is not yet whole, the step stages the image's next
byte, with w_done 0, the buffered samples, the sink and the framer's wait as before. At the drain edge, with an idle
writer, the last sample is appended if there is room and the framer goes on to the finish stage. That the staging is
emptied at the commit edge is the model's (log 19), and so are the edges at which each happens (log 7). -/
def Obligations.CommitAnswersWithTheSink : Prop :=
  (∀ s, s.wr.stage = .staging → imageLength s.wr.sampleCount ≤ s.wr.staging.length → s.fr.busy = true → s.fr.stage = .wait →
    s.now.pins.rst = false → s.now.place = none →
    ∃ t, step s = .next t ∧ t.wr.wDone = true ∧ t.wr.wOk = !s.now.pins.sinkErr ∧ t.wr.staging = [] ∧ t.wr.stage = .idle ∧
      (s.dec.outValid = false → t.wr.sampleBuf = s.wr.sampleBuf) ∧
      t.sink = (if s.now.pins.sinkErr then s.sink else s.sink ++ [s.wr.staging])) ∧
  (∀ s, s.wr.stage = .staging → s.wr.staging.length < imageLength s.wr.sampleCount → s.fr.busy = true → s.fr.stage = .wait →
    s.wr.wDone = false → s.dec.outValid = false → s.now.pins.rst = false → s.now.place = none →
    ∃ t, step s = .next t ∧ t.fr = { s.fr with done := false } ∧ t.sink = s.sink ∧
      t.wr = { s.wr with staging := s.wr.staging ++
        [imageByte Config.build s.wr.sampleRate s.wr.sampleBuf s.wr.staging.length] }) ∧
  (∀ s, s.fr.busy = true → s.fr.stage = .drain → s.wr.stage = .idle → s.now.pins.rst = false → s.now.place = none →
    ∃ t, step s = .next t ∧ t.fr = { s.fr with stage := .finish, done := false } ∧ t.sink = s.sink ∧
      t.dec = { s.dec with outValid := false } ∧
      (s.dec.outValid = true → s.wr.sampleCount < sampleCapacity Config.build →
        t.wr = { s.wr with sampleBuf := s.wr.sampleBuf ++ [outSample s.dec], wDone := false })) ∧
  (∀ s t, step s = .next t → sinkCommit s.wr = false → t.sink = s.sink)

/-- Formalises R147. For every build, rate and sample list of length N, the image is RIFF, 36+2N, WAVE, fmt, 16, 1, 1,
the rate, twice the rate, 2, 16, data, 2N in the stated sizes, little-endian, and then the 2N sample bytes. -/
def Obligations.ContainerLayoutIsRiffWave : Prop :=
  ∀ (P : Params) (rate : Word32) (buf : List Sample),
    containerImage P rate buf =
      [0x52#8, 0x49#8, 0x46#8, 0x46#8] ++ leBytes 4 (36 + 2 * buf.length) ++ [0x57#8, 0x41#8, 0x56#8, 0x45#8] ++
      [0x66#8, 0x6D#8, 0x74#8, 0x20#8] ++ leBytes 4 16 ++ leBytes 2 1 ++ leBytes 2 1 ++ leBytes 4 rate.toNat ++
      leBytes 4 (2 * rate.toNat) ++ leBytes 2 2 ++ leBytes 2 16 ++ [0x64#8, 0x61#8, 0x74#8, 0x61#8] ++
      leBytes 4 (2 * buf.length) ++ buf.flatMap (fun x => [x.extractLsb' 0 8, x.extractLsb' 8 8])

/-- Formalises R148. For every build, rate and sample list, byte 44+2k of the image is bits 7..0 of sample k and byte
45+2k its bits 15..8, for every k below N, and the image ends after them. -/
def Obligations.SamplesAreStoredLittleEndian : Prop :=
  ∀ (P : Params) (rate : Word32) (buf : List Sample),
    (∀ k (h : k < buf.length),
      (containerImage P rate buf)[44 + 2 * k]? = some (buf[k].extractLsb' 0 8) ∧
      (containerImage P rate buf)[45 + 2 * k]? = some (buf[k].extractLsb' 8 8)) ∧
    (containerImage P rate buf).length = 44 + 2 * buf.length

/-- Rests on R143, R147, R149, 20_memory.md section 2. For every build, a legal rate and N at most 2147483629 samples:
the little-endian values at offsets 4, 40, 24 and 28 are 36+2N, 2N, the rate and twice the rate, exactly; with one
sample more the first field would not hold its value. (The container is the one format the spec lays out,
RIFF_WAVE_PCM: log 4.) -/
def Obligations.LengthFieldsAreExact : Prop :=
  (∀ (P : Params) (rate : Word32) (buf : List Sample), rateLegal rate = true → buf.length ≤ 2147483629 →
    leValue (((containerImage P rate buf).drop 4).take 4) = 36 + 2 * buf.length ∧
    leValue (((containerImage P rate buf).drop 40).take 4) = 2 * buf.length ∧
    leValue (((containerImage P rate buf).drop 24).take 4) = rate.toNat ∧
    leValue (((containerImage P rate buf).drop 28).take 4) = 2 * rate.toNat) ∧
  leValue (leBytes 4 (36 + 2 * 2147483630)) ≠ 36 + 2 * 2147483630 ∧
  sampleCapacity Config.build ≤ 2147483629

/-- Rests on R45, R150. For every build, rate, sample list and offset below 44+2N, the byte computed for staging is the
image's byte at that offset. -/
def Obligations.StagedByteIsTheImagesByte : Prop :=
  ∀ (P : Params) (rate : Word32) (buf : List Sample) (k : Nat), k < imageLength buf.length →
    (containerImage P rate buf)[k]? = some (imageByte P rate buf k)

/-- Formalises R124. A buffer that begins with the seven signature bytes has its payload at offset 32; any other buffer,
a near-miss or a shorter one included, has it at offset 0; two signature-prefixed buffers of one length that agree
from offset 32 on have the same file result, whatever their bytes 7 to 31. -/
def Obligations.HeaderBytesAfterTheSignatureNeverMatter : Prop :=
  (∀ rest : List Byte, payloadOf (Config.headerSignature.toList ++ rest) = (Config.headerSignature.toList ++ rest).drop 32 ∧
    modeOf (Config.headerSignature.toList ++ rest) = .headered) ∧
  (∀ bs : List Byte, ¬ Config.headerSignature.toList <+: bs → payloadOf bs = bs ∧ modeOf bs = .raw) ∧
  (∀ (P : Params) (r r' : List Byte) (rdErr : Bool) (rate : Word32) (sinkErr : Bool), r.length = r'.length → r.drop 25 = r'.drop 25 →
    runFile P (Config.headerSignature.toList ++ r) rdErr rate sinkErr =
    runFile P (Config.headerSignature.toList ++ r') rdErr rate sinkErr)

/-- Rests on R134, R175, R180. For every build and file at the transaction level: with rd_err the outcome is
READ_FAILURE whatever the rest; else with an empty payload SKIPPED_EMPTY whatever the rate and the sink; else above
the bound WRITE_FAILURE; else with an illegal rate or a sink error WRITE_FAILURE; else OK; a container exists
exactly when the outcome is OK, and it is then the image of the file's 2P samples. After an abort PARTIAL_DECODE
ranks below WRITE_FAILURE. -/
def Obligations.OutcomePriorityFollowsTheChecks : Prop :=
  (∀ (P : Params) (bs : List Byte) (rdErr : Bool) (rate : Word32) (sinkErr : Bool),
    (runFile P bs rdErr rate sinkErr).outcome =
      (if rdErr then .readFailure else if payloadOf bs = [] then .skippedEmpty
       else if P.maxPayloadBytes < (payloadOf bs).length then .writeFailure
       else if rateLegal rate = false ∨ sinkErr = true then .writeFailure else .ok) ∧
    ((runFile P bs rdErr rate sinkErr).container ≠ none ↔ (runFile P bs rdErr rate sinkErr).outcome = .ok) ∧
    ((runFile P bs rdErr rate sinkErr).outcome = .ok →
      (runFile P bs rdErr rate sinkErr).container = some (containerImage P rate (runFile P bs rdErr rate sinkErr).samples) ∧
      (runFile P bs rdErr rate sinkErr).samples.length = 2 * (payloadOf bs).length)) ∧
  outcomeOf true false = .writeFailure ∧ outcomeOf true true = .partialDecode

/-- Rests on R129, R134, R135, R179, R181, R212. For every state with no file in progress whose pins START a file (a
buffer placed with it or already there), and pins left quiet afterwards: after the number of edges of the schedule
the machine has busy 0 and done 1, the outcome, mode, decoder registers and samples of FILE(buf, rd_err, rate), and
the sink has got that file's container, or nothing, after what it held. The number of edges is the model's schedule
(log 7). -/
def Obligations.FileRunMatchesTheFileProcedure : Prop :=
  ∀ s : State, s.fr.busy = false → s.now.pins.rst = false → s.now.pins.start = true → s.later = [] →
    let bs := Memory.bytes (s.now.place.getD s.input) s.now.pins.bufLen.toNat
    let p := s.now.pins
    let r := runFile Config.build bs p.rdErr p.sampleRate p.sinkErr
    ∃ t : State, Sys2Proof.core.run (fileEdges Config.build bs p.rdErr p.sampleRate) s = .next t ∧
      t.fr.busy = false ∧ t.fr.done = true ∧ t.fr.status = r.outcome ∧ t.fr.mode = r.mode ∧
      t.dec.stepIndex = r.stepIndex ∧ t.dec.predicted = r.predicted ∧ t.wr.sampleBuf = r.samples ∧
      t.sink = s.sink ++ r.container.toList

/-- Rests on R132, R179, R212. For every state with no file in progress whose pins START a file, and pins left quiet
afterwards: at every edge before the last of the schedule the machine goes on with busy 1, status NONE and done 0,
and the sink is as it was as long as the writer has not answered (w_done = 0), and after every edge but the last
two. The number of edges is the model's schedule (log 7). -/
def Obligations.FileStaysBusyUntilItsOutcome : Prop :=
  ∀ s : State, s.fr.busy = false → s.now.pins.rst = false → s.now.pins.start = true → s.later = [] →
    let bs := Memory.bytes (s.now.place.getD s.input) s.now.pins.bufLen.toNat
    let p := s.now.pins
    ∀ k, 0 < k → k < fileEdges Config.build bs p.rdErr p.sampleRate →
      ∃ t : State, Sys2Proof.core.run k s = .next t ∧ t.fr.busy = true ∧ t.fr.status = .none ∧ t.fr.done = false ∧
        (t.wr.wDone = false → t.sink = s.sink) ∧
        (k + 1 < fileEdges Config.build bs p.rdErr p.sampleRate → t.sink = s.sink)

/-- Rests on R57, R185. In a system of instances of any build, an edge of instance j puts the state that the build's
step answers from j's state in j's place, or changes nothing where there is no instance j; it leaves every other
instance as it is, and stops exactly where that step stops; edges of two different instances give the same system in
either order. For the build this model runs, the step is the machine's own (the parameters are the one build's: log
22). -/
def Obligations.InstancesShareNothing : Prop :=
  (∀ (P : Params) (sys u : List State) (j : Nat), stepInstance P j sys = .next u →
    (∀ m, m ≠ j → u[m]? = sys[m]?) ∧ (sys[j]? = none → u = sys) ∧
    (∀ s, sys[j]? = some s → ∃ t, stepOn P s = .next t ∧ u[j]? = some t)) ∧
  (∀ (P : Params) (sys : List State) (j : Nat) (s : State), sys[j]? = some s →
    (∀ t, stepOn P s = .next t → ∃ u, stepInstance P j sys = .next u) ∧
    (∀ f, stepOn P s = .fault f → stepInstance P j sys = .fault f) ∧
    (∀ f, stepOn P s = .refused f → stepInstance P j sys = .refused f)) ∧
  (∀ (P : Params) (sys u v : List State) (j k : Nat), j ≠ k → stepInstance P j sys = .next u → stepInstance P k u = .next v →
    ∃ w, stepInstance P k sys = .next w ∧ stepInstance P j w = .next v) ∧
  (∀ s, stepOn Config.build s = step s)

/-- Rests on R32, R33, R171. The codes of NONE, OK, SKIPPED_EMPTY, READ_FAILURE, PARTIAL_DECODE and WRITE_FAILURE are 0
to 5, and status never shows 6 or 7; dbg_step_index is step_index, dbg_predicted is predicted_sample, and out_sample
is 16 times it, in every state, whatever out_valid is. -/
def Obligations.StatusCodesAndObservationPorts : Prop :=
  (statusCode .none).toNat = 0 ∧ (statusCode .ok).toNat = 1 ∧ (statusCode .skippedEmpty).toNat = 2 ∧
  (statusCode .readFailure).toNat = 3 ∧ (statusCode .partialDecode).toNat = 4 ∧ (statusCode .writeFailure).toNat = 5 ∧
  (∀ s : State, (statusPort s).toNat ≤ 5) ∧
  (∀ d : Decoder, (dbgStepIndex d).toNat = d.stepIndex.val ∧ (dbgPredicted d).toInt = d.predicted.toInt ∧
    (outSample d).toInt = 16 * d.predicted.toInt)
end

