-- ==== Sys2Proof/Laws/Container.lean ====
section
/-! SUPPORT. MemWrite at the end of an image, and the samples it lays down. -/

namespace Sys2Proof.Machine

@[simp] theorem leBytes_length : ∀ n v : Nat, (leBytes n v).length = n
  | 0, _ => rfl
  | n + 1, v => by simp [leBytes, leBytes_length n]

/-- A MemWrite at the image's end appends. -/
theorem memWrite_end {img : Image} {a : Nat} (n v : Nat) (h : img.length = a) :
    memWrite img a n v = img ++ leBytes n v := by
  subst h; simp [memWrite]

/-- The 44 header bytes. -/
@[simp] theorem riffHeader_length (rate : Word32) (N : Nat) : (riffHeader rate N).length = 44 := by
  simp [riffHeader, memWrite]

/-- The samples, written one after the other at an image's end. -/
theorem writeSamples_end : ∀ (img : Image) (k : Nat) (buf : List Sample), img.length = 44 + 2 * k →
    writeSamples img k buf = img ++ buf.flatMap (fun x => leBytes 2 x.toNat)
  | img, k, [], _ => by simp [writeSamples]
  | img, k, x :: xs, h => by
    rw [writeSamples, memWrite_end 2 x.toNat h, writeSamples_end _ (k + 1) xs (by simp; omega)]
    simp

/-- The header, field after field. -/
theorem riffHeader_fields (rate : Word32) (N : Nat) :
    riffHeader rate N =
      leBytes 4 (fourCC 0x52 0x49 0x46 0x46) ++ leBytes 4 (36 + 2 * N) ++ leBytes 4 (fourCC 0x57 0x41 0x56 0x45) ++
      leBytes 4 (fourCC 0x66 0x6D 0x74 0x20) ++ leBytes 4 16 ++ leBytes 2 1 ++ leBytes 2 1 ++ leBytes 4 rate.toNat ++
      leBytes 4 (2 * rate.toNat) ++ leBytes 2 2 ++ leBytes 2 16 ++ leBytes 4 (fourCC 0x64 0x61 0x74 0x61) ++
      leBytes 4 (2 * N) := by
  simp (disch := simp) only [riffHeader, memWrite_end, List.nil_append]

/-- The two bytes of a sample, low byte first. -/
def sampleBytes (x : Sample) : List Byte := [x.extractLsb' 0 8, x.extractLsb' 8 8]

theorem leBytes_sample (x : Sample) : leBytes 2 x.toNat = sampleBytes x := by
  have h1 : BitVec.ofNat 8 x.toNat = x.extractLsb' 0 8 := by apply BitVec.eq_of_toNat_eq; simp
  have h2 : BitVec.ofNat 8 (x.toNat / 256) = x.extractLsb' 8 8 := by
    apply BitVec.eq_of_toNat_eq; simp [Nat.shiftRight_eq_div_pow]
  simp only [leBytes, h1, h2, sampleBytes]

/-- The image: the header, then the samples' bytes. -/
theorem containerImage_parts (P : Params) (rate : Word32) (buf : List Sample) :
    containerImage P rate buf = riffHeader rate buf.length ++ buf.flatMap sampleBytes := by
  have h := writeSamples_end (riffHeader rate buf.length) 0 buf (by simp)
  simp only [leBytes_sample] at h
  rw [← h]
  unfold containerImage; cases P.containerFormat; rfl

theorem flatMap_sampleBytes_length (buf : List Sample) : (buf.flatMap sampleBytes).length = 2 * buf.length := by
  induction buf with
  | nil => rfl
  | cons x xs ih => rw [List.flatMap_cons, List.length_append, ih, List.length_cons]; simp only [sampleBytes, List.length_cons, List.length_nil]; omega

theorem containerImage_length (P : Params) (rate : Word32) (buf : List Sample) :
    (containerImage P rate buf).length = imageLength buf.length := by
  rw [containerImage_parts, List.length_append, flatMap_sampleBytes_length, riffHeader_length]; rfl

end Sys2Proof.Machine
end

