-- ==== Sys2Proof/Laws/State.lean ====
section
/-! SUPPORT. One lemma per field per named update of the state. -/

namespace Sys2Proof.Machine

@[simp] theorem decode_dec (P : Params) (s : State) (n : Nibble) : (State.decode P s n).dec = decodeNibble P s.dec n := rfl
@[simp] theorem decode_fr (P : Params) (s : State) (n : Nibble) : (State.decode P s n).fr = s.fr := rfl
@[simp] theorem decode_wr (P : Params) (s : State) (n : Nibble) : (State.decode P s n).wr = s.wr := rfl
@[simp] theorem decode_input (P : Params) (s : State) (n : Nibble) : (State.decode P s n).input = s.input := rfl
@[simp] theorem decode_sink (P : Params) (s : State) (n : Nibble) : (State.decode P s n).sink = s.sink := rfl
@[simp] theorem decode_now (P : Params) (s : State) (n : Nibble) : (State.decode P s n).now = s.now := rfl
@[simp] theorem decode_later (P : Params) (s : State) (n : Nibble) : (State.decode P s n).later = s.later := rfl

@[simp] theorem clearDecoder_dec (P : Params) (s : State) : (State.clearDecoder P s).dec = Decoder.initial P := rfl
@[simp] theorem clearDecoder_fr (P : Params) (s : State) : (State.clearDecoder P s).fr = s.fr := rfl
@[simp] theorem clearDecoder_wr (P : Params) (s : State) : (State.clearDecoder P s).wr = s.wr := rfl
@[simp] theorem clearDecoder_input (P : Params) (s : State) : (State.clearDecoder P s).input = s.input := rfl
@[simp] theorem clearDecoder_sink (P : Params) (s : State) : (State.clearDecoder P s).sink = s.sink := rfl
@[simp] theorem clearDecoder_now (P : Params) (s : State) : (State.clearDecoder P s).now = s.now := rfl
@[simp] theorem clearDecoder_later (P : Params) (s : State) : (State.clearDecoder P s).later = s.later := rfl

@[simp] theorem resetOf_dec (P : Params) : (State.resetOf P).dec = Decoder.initial P := rfl
@[simp] theorem resetOf_fr (P : Params) : (State.resetOf P).fr = Framer.initial := rfl
@[simp] theorem resetOf_wr (P : Params) : (State.resetOf P).wr = Writer.initial := rfl
@[simp] theorem resetOf_input (P : Params) : (State.resetOf P).input = [] := rfl
@[simp] theorem resetOf_sink (P : Params) : (State.resetOf P).sink = [] := rfl
@[simp] theorem resetOf_now (P : Params) : (State.resetOf P).now = { pins := Pins.low, place := none, abort := false } := rfl
@[simp] theorem resetOf_later (P : Params) : (State.resetOf P).later = [] := rfl

@[simp] theorem decodeNibble_stepIndex (P : Params) (d : Decoder) (n : Nibble) :
    (decodeNibble P d n).stepIndex = nextIndex P d.stepIndex n := rfl
@[simp] theorem decodeNibble_predicted (P : Params) (d : Decoder) (n : Nibble) :
    (decodeNibble P d n).predicted = nextPredicted P d.stepIndex d.predicted n := rfl
@[simp] theorem decodeNibble_outValid (P : Params) (d : Decoder) (n : Nibble) :
    (decodeNibble P d n).outValid = true := rfl

@[simp] theorem initial_stepIndex (P : Params) : (Decoder.initial P).stepIndex = P.initStepIndex := rfl
@[simp] theorem initial_predicted (P : Params) : (Decoder.initial P).predicted = P.initPredicted := rfl
@[simp] theorem initial_outValid (P : Params) : (Decoder.initial P).outValid = false := rfl

@[simp] theorem raiseOutcome_status (f : Framer) (c : Status) : (raiseOutcome f c).status = c := rfl
@[simp] theorem raiseOutcome_done (f : Framer) (c : Status) : (raiseOutcome f c).done = true := rfl
@[simp] theorem raiseOutcome_busy (f : Framer) (c : Status) : (raiseOutcome f c).busy = false := rfl
@[simp] theorem raiseOutcome_stage (f : Framer) (c : Status) : (raiseOutcome f c).stage = .header 0 := rfl
@[simp] theorem raiseOutcome_cursor (f : Framer) (c : Status) : (raiseOutcome f c).cursor = f.cursor := rfl
@[simp] theorem raiseOutcome_phase (f : Framer) (c : Status) : (raiseOutcome f c).phase = f.phase := rfl
@[simp] theorem raiseOutcome_payloadOffset (f : Framer) (c : Status) :
    (raiseOutcome f c).payloadOffset = f.payloadOffset := rfl
@[simp] theorem raiseOutcome_mode (f : Framer) (c : Status) : (raiseOutcome f c).mode = f.mode := rfl
@[simp] theorem raiseOutcome_curByte (f : Framer) (c : Status) : (raiseOutcome f c).curByte = f.curByte := rfl
@[simp] theorem raiseOutcome_len (f : Framer) (c : Status) : (raiseOutcome f c).len = f.len := rfl
@[simp] theorem raiseOutcome_rdErr (f : Framer) (c : Status) : (raiseOutcome f c).rdErr = f.rdErr := rfl
@[simp] theorem raiseOutcome_aborted (f : Framer) (c : Status) : (raiseOutcome f c).aborted = f.aborted := rfl

@[simp] theorem nextDrive_dec (s : State) : (nextDrive s).dec = s.dec := by unfold nextDrive; split <;> rfl
@[simp] theorem nextDrive_fr (s : State) : (nextDrive s).fr = s.fr := by unfold nextDrive; split <;> rfl
@[simp] theorem nextDrive_wr (s : State) : (nextDrive s).wr = s.wr := by unfold nextDrive; split <;> rfl
@[simp] theorem nextDrive_input (s : State) : (nextDrive s).input = s.input := by unfold nextDrive; split <;> rfl
@[simp] theorem nextDrive_sink (s : State) : (nextDrive s).sink = s.sink := by unfold nextDrive; split <;> rfl
@[simp] theorem nextDrive_later (s : State) : (nextDrive s).later = s.later.tail := by
  unfold nextDrive; split <;> simp_all

theorem nextDrive_now (s : State) :
    (nextDrive s).now = (match s.later with | [] => releaseDrive s.now | d :: _ => d) := by
  unfold nextDrive; split <;> simp_all

@[simp] theorem presentNibble_dec (s : State) (n : Nibble) : (presentNibble s n).dec = s.dec := rfl
@[simp] theorem presentNibble_wr (s : State) (n : Nibble) : (presentNibble s n).wr = s.wr := rfl
@[simp] theorem presentNibble_input (s : State) (n : Nibble) : (presentNibble s n).input = s.input := rfl
@[simp] theorem presentNibble_sink (s : State) (n : Nibble) : (presentNibble s n).sink = s.sink := rfl
@[simp] theorem presentNibble_later (s : State) (n : Nibble) : (presentNibble s n).later = s.later := rfl
@[simp] theorem presentNibble_busy (s : State) (n : Nibble) : (presentNibble s n).fr.busy = false := rfl

end Sys2Proof.Machine
end

