-- ==== Sys2Proof/Laws/Operands.lean ====
section
/-! SUPPORT. The integers behind the decoder's words. -/

namespace Sys2Proof.Machine

theorem clamp_of_mem {v lo hi : Int} (h₁ : lo ≤ v) (h₂ : v ≤ hi) : clamp v lo hi = v := by
  unfold clamp; split <;> [omega; split] <;> omega

/-- The index register holds the clamped sum itself: nothing wraps. -/
theorem nextIndex_val (P : Params) (i : Fin 49) (n : Nibble) :
    ((nextIndex P i n).val : Int) = clamp ((i.val : Int) + indexDeltaAt P n) 0 48 := by
  have := clamp_mem ((i.val : Int) + indexDeltaAt P n) (lo := 0) (hi := 48) (by decide)
  simp only [nextIndex]; omega

/-- A 12-bit predictor's value lies in its range. -/
theorem predictor_mem (p : Predictor) : -2048 ≤ p.toInt ∧ p.toInt ≤ 2047 := by
  have := BitVec.le_toInt p; have := BitVec.toInt_lt (x := p); simp at *; omega

/-- A word made from an integer in the 12-bit range has that integer as its value. -/
theorem toInt_ofInt_predictor {v : Int} (h₁ : -2048 ≤ v) (h₂ : v ≤ 2047) : (BitVec.ofInt 12 v).toInt = v := by
  rw [BitVec.toInt_ofInt, Int.bmod_eq_of_le] <;> simp <;> omega

/-- The predictor register holds the clamped exact sum. -/
theorem nextPredicted_toInt (P : Params) (i : Fin 49) (p : Predictor) (n : Nibble) :
    (nextPredicted P i p n).toInt =
      clamp (if signBit n then p.toInt - magnitude (stepSizeAt P i) n else p.toInt + magnitude (stepSizeAt P i) n)
        (-2048) 2047 := by
  have h := fun v => clamp_mem v (lo := -2048) (hi := 2047) (by decide)
  exact toInt_ofInt_predictor (h _).1 (h _).2

/-- The sample's value is 16 times the predictor's. -/
theorem sampleOf_toInt (p : Predictor) : (sampleOf p).toInt = 16 * p.toInt := by
  have := predictor_mem p
  rw [sampleOf, BitVec.toInt_ofInt, Int.bmod_eq_of_le] <;> simp <;> omega

end Sys2Proof.Machine
end

