-- ==== Sys2Proof/Laws/Exec.lean ====
section
/-! SUPPORT. What each command's meaning answers, said once for every build and then for the build this model runs. -/

namespace Sys2Proof.Machine

/-- `exec` is the parametric meaning at the build this model runs. -/
theorem exec_eq (i : Instr) (s : State) : exec i s = execOn Config.build i s := by cases i <;> rfl

/-- The opcode map gives each code an instruction whose code it is. -/
theorem encodeCode_decodeCode : ∀ n : Nibble, encodeCode (decodeCode n) = some n := by decide

/-- An instruction with a nibble code decodes that nibble. -/
theorem execOn_code {i : Instr} {n : Nibble} (h : encodeCode i = some n) (P : Params) (s : State) :
    execOn P i s = .next (State.decode P s n) := by
  cases i <;> simp only [encodeCode, Option.some.injEq, reduceCtorEq] at h <;> subst h <;> rfl

/-- The command of a nibble code decodes that nibble. -/
theorem execOn_decodeCode (P : Params) (n : Nibble) (s : State) : execOn P (decodeCode n) s = .next (State.decode P s n) :=
  execOn_code (encodeCode_decodeCode n) P s

theorem execOn_reset (P : Params) (s : State) :
    execOn P .reset s = .next { s with dec := Decoder.initial P, fr := Framer.initial, wr := Writer.initial } := rfl

theorem execOn_init (P : Params) (s : State) : execOn P .init s = .next { s with dec := Decoder.initial P } := rfl

theorem execOn_idle (P : Params) (s : State) : execOn P .idle s = .next { s with dec := { s.dec with outValid := false } } := rfl

theorem execOn_framerStart_busy {P : Params} {s : State} (h : s.fr.busy = true) : execOn P .framerStart s = .next s := by
  simp [execOn, execFramerStartOn, h]

theorem execOn_framerStart {P : Params} {s : State} (h : s.fr.busy = false) :
    execOn P .framerStart s = .next { s with dec := Decoder.initial P, fr := startFramer s.fr s.now.pins,
                                             wr := startWriter s.wr s.now.pins } := by
  simp [execOn, execFramerStartOn, h, State.clearDecoder]

/-- Every command answers a next state. -/
theorem execOn_total (P : Params) (i : Instr) (s : State) : ∃ t, execOn P i s = .next t := by
  cases i with
  | framerStart => simp only [execOn, execFramerStartOn]; split <;> exact ⟨_, rfl⟩
  | _ => exact ⟨_, rfl⟩

theorem exec_code {i : Instr} {n : Nibble} (h : encodeCode i = some n) (s : State) :
    exec i s = .next (State.decode Config.build s n) := (exec_eq i s).trans (execOn_code h _ s)

theorem exec_decodeCode (n : Nibble) (s : State) : exec (decodeCode n) s = .next (State.decode Config.build s n) :=
  exec_code (encodeCode_decodeCode n) s

theorem exec_reset (s : State) :
    exec .reset s = .next { s with dec := Decoder.initial Config.build, fr := Framer.initial, wr := Writer.initial } := rfl

theorem exec_init (s : State) : exec .init s = .next { s with dec := Decoder.initial Config.build } := rfl

theorem exec_idle (s : State) : exec .idle s = .next { s with dec := { s.dec with outValid := false } } := rfl

theorem exec_framerStart_busy {s : State} (h : s.fr.busy = true) : exec .framerStart s = .next s :=
  (exec_eq _ s).trans (execOn_framerStart_busy h)

theorem exec_framerStart {s : State} (h : s.fr.busy = false) :
    exec .framerStart s = .next { s with dec := Decoder.initial Config.build, fr := startFramer s.fr s.now.pins,
                                         wr := startWriter s.wr s.now.pins } :=
  (exec_eq _ s).trans (execOn_framerStart h)

theorem exec_total (i : Instr) (s : State) : ∃ t, exec i s = .next t := exec_eq i s ▸ execOn_total _ i s

end Sys2Proof.Machine
end

