-- ==== Sys2Proof/Laws/File.lean ====
section
/-! SUPPORT. The signature test on a whole buffer. -/

namespace Sys2Proof.Machine

theorem isHeadered_eq_true {bs : List Byte} : isHeadered bs = true ↔ Config.headerSignature.toList <+: bs := by
  unfold isHeadered; rw [decide_eq_true_eq]
  exact ⟨fun h => h ▸ List.take_prefix 7 bs, fun h => (List.prefix_iff_eq_take.mp h).symm⟩

theorem modeOf_headered {bs : List Byte} (h : Config.headerSignature.toList <+: bs) : modeOf bs = .headered :=
  if_pos (isHeadered_eq_true.mpr h)

theorem modeOf_raw {bs : List Byte} (h : ¬ Config.headerSignature.toList <+: bs) : modeOf bs = .raw :=
  if_neg (fun h' => h (isHeadered_eq_true.mp h'))

end Sys2Proof.Machine
end

