-- ==== Sys2Proof/Laws/Framer.lean ====
section
/-! SUPPORT. The framer's edges, one lemma per case. -/

namespace Sys2Proof.Machine

/-- Signature byte `k` is in the buffer, below L (42_stream_framer.md R122). -/
def signatureByteAt (f : Framer) (m : Memory) (k : Fin 7) : Prop :=
  k.val < f.len.toNat ∧ Memory.read m k.val = Config.headerSignature.get k

theorem headerTick_mismatch {P : Params} {f : Framer} {m : Memory} {k : Fin 7} (h : ¬ signatureByteAt f m k) :
    headerTick P f m k = enterPayload P f .raw := if_neg h

theorem headerTick_more {P : Params} {f : Framer} {m : Memory} {k : Fin 7} (h : signatureByteAt f m k) (hk : k.val + 1 < 7) :
    headerTick P f m k = { f with stage := .header ⟨k.val + 1, hk⟩ } := by
  rw [headerTick, if_pos (show _ ∧ _ from h), dif_pos hk]

theorem headerTick_last {P : Params} {f : Framer} {m : Memory} {k : Fin 7} (h : signatureByteAt f m k) (hk : ¬ k.val + 1 < 7) :
    headerTick P f m k = enterPayload P f .headered := by
  rw [headerTick, if_pos (show _ ∧ _ from h), dif_neg hk]

theorem enterPayload_empty {P : Params} {f : Framer} {mode : Mode} (h : f.len.toNat ≤ offsetOf mode) :
    enterPayload P f mode = raiseOutcome { f with mode := mode, payloadOffset := offsetOf mode } .skippedEmpty := by
  simp only [enterPayload]; rw [if_pos (by omega)]

theorem enterPayload_oversize {P : Params} {f : Framer} {mode : Mode} (h : offsetOf mode < f.len.toNat)
    (h' : P.maxPayloadBytes < f.len.toNat - offsetOf mode) :
    enterPayload P f mode = raiseOutcome { f with mode := mode, payloadOffset := offsetOf mode } .writeFailure := by
  simp only [enterPayload]; rw [if_neg (by omega), if_pos (by omega)]

theorem enterPayload_feed {P : Params} {f : Framer} {mode : Mode} (h : offsetOf mode < f.len.toNat)
    (h' : f.len.toNat - offsetOf mode ≤ P.maxPayloadBytes) :
    enterPayload P f mode =
      { f with mode := mode, payloadOffset := offsetOf mode, cursor := offsetOf mode, stage := .feed } := by
  simp only [enterPayload]; rw [if_neg (by omega), if_neg (by omega)]

theorem framerTick_idle {P : Params} {s : State} (h : s.fr.busy = false) : framerTick P s = { s.fr with done := false } := by
  simp [framerTick, h]

theorem framerTick_header {P : Params} {s : State} {k : Fin 7} (h : s.fr.busy = true) (hs : s.fr.stage = .header k) :
    framerTick P s = headerTick P { s.fr with done := false } s.input k := by
  simp [framerTick, h, hs]

theorem framerTick_feed {P : Params} {s : State} (h : s.fr.busy = true) (hs : s.fr.stage = .feed) :
    framerTick P s = feedTick { s.fr with done := false } s.input s.now.abort := by
  simp [framerTick, h, hs]

theorem framerTick_drain {P : Params} {s : State} (h : s.fr.busy = true) (hs : s.fr.stage = .drain) :
    framerTick P s = { s.fr with done := false, stage := .finish } := by
  simp [framerTick, h, hs]

theorem framerTick_finish {P : Params} {s : State} (h : s.fr.busy = true) (hs : s.fr.stage = .finish) :
    framerTick P s = { s.fr with done := false, stage := .wait } := by
  simp [framerTick, h, hs]

theorem framerTick_wait {P : Params} {s : State} (h : s.fr.busy = true) (hs : s.fr.stage = .wait) :
    framerTick P s = if s.wr.wDone then raiseOutcome { s.fr with done := false } (outcomeOf s.fr.aborted s.wr.wOk)
      else { s.fr with done := false } := by
  simp [framerTick, h, hs]

end Sys2Proof.Machine
end

