-- ==== Sys2Proof/Laws/Memory.lean ====
section
/-! SUPPORT. The input buffer: every operation keeps the canonical form, and reads see writes. -/

namespace Sys2Proof.Machine

theorem wfFrom_mono {lo lo' : Nat} (h : lo' ≤ lo) : ∀ {m : Memory}, Memory.wfFrom lo m = true → Memory.wfFrom lo' m = true
  | [], _ => rfl
  | (a, b) :: m, hm => by
    simp only [Memory.wfFrom, Bool.and_eq_true, decide_eq_true_eq] at hm ⊢
    exact ⟨⟨Nat.le_trans h hm.1.1, hm.1.2⟩, hm.2⟩

theorem read_below {lo x : Nat} (h : x < lo) : ∀ {m : Memory}, Memory.wfFrom lo m = true → Memory.read m x = 0#8
  | [], _ => rfl
  | (a, b) :: m, hm => by
    simp only [Memory.wfFrom, Bool.and_eq_true, decide_eq_true_eq] at hm
    have hne : x ≠ a := by omega
    simp only [Memory.read, if_neg hne]
    exact read_below (by omega) hm.2

theorem write_wfFrom {lo x : Nat} (v : Byte) (h : lo ≤ x) :
    ∀ {m : Memory}, Memory.wfFrom lo m = true → Memory.wfFrom lo (Memory.write m x v) = true
  | [], _ => by
    unfold Memory.write; split
    · rfl
    · simp [Memory.wfFrom, *]
  | (a, b) :: m, hm => by
    have hc := hm
    simp only [Memory.wfFrom, Bool.and_eq_true, decide_eq_true_eq] at hc
    obtain ⟨⟨hla, hb⟩, hm'⟩ := hc
    unfold Memory.write
    split
    · split
      · exact hm
      · simp only [Memory.wfFrom, Bool.and_eq_true, decide_eq_true_eq]
        exact ⟨⟨h, ‹_›⟩, ⟨⟨by omega, hb⟩, hm'⟩⟩
    · split
      · split
        · exact wfFrom_mono (by omega) hm'
        · subst x
          simp only [Memory.wfFrom, Bool.and_eq_true, decide_eq_true_eq]
          exact ⟨⟨hla, ‹_›⟩, hm'⟩
      · simp only [Memory.wfFrom, Bool.and_eq_true, decide_eq_true_eq]
        exact ⟨⟨hla, hb⟩, write_wfFrom v (by omega) hm'⟩

/-- A write keeps the canonical form. -/
theorem write_wf {m : Memory} (x : Nat) (v : Byte) (h : Memory.wf m = true) : Memory.wf (Memory.write m x v) = true :=
  write_wfFrom v (Nat.zero_le x) h

theorem read_write_from {lo : Nat} (x y : Nat) (v : Byte) :
    ∀ {m : Memory}, Memory.wfFrom lo m = true → Memory.read (Memory.write m x v) y = if y = x then v else Memory.read m y
  | [], _ => by
    unfold Memory.write
    split <;> simp_all [Memory.read]
  | (a, b) :: m, hm => by
    simp only [Memory.wfFrom, Bool.and_eq_true, decide_eq_true_eq] at hm
    obtain ⟨⟨hla, hb⟩, hm'⟩ := hm
    have hbelow : ∀ z, z ≤ a → Memory.read m z = 0#8 := fun z hz => read_below (by omega) hm'
    unfold Memory.write
    split
    · have hx : x ≠ a := by omega
      split
      · rename_i hv
        by_cases hy : y = x
        · subst hy; simp [Memory.read, hx, hbelow y (by omega), hv]
        · simp [hy]
      · simp only [Memory.read]
    · split
      · rename_i hxa; subst hxa
        split
        · rename_i hv
          by_cases hy : y = x
          · subst hy; simp [hbelow y (Nat.le_refl _), hv]
          · simp [Memory.read, hy]
        · by_cases hy : y = x <;> simp [Memory.read, hy]
      · rename_i hlt hxa
        simp only [Memory.read]
        by_cases hy : y = a
        · have : y ≠ x := by omega
          simp [hy, show a ≠ x by omega]
        · simp only [if_neg hy]
          exact read_write_from x y v hm'

/-- A read after a write: the written byte at its offset, every other byte as before. -/
theorem read_write {m : Memory} (x y : Nat) (v : Byte) (h : Memory.wf m = true) :
    Memory.read (Memory.write m x v) y = if y = x then v else Memory.read m y :=
  read_write_from x y v h

theorem ofBytesFrom_wfFrom : ∀ (k : Nat) (bs : List Byte), Memory.wfFrom k (Memory.ofBytesFrom k bs) = true
  | _, [] => rfl
  | k, b :: bs => by
    unfold Memory.ofBytesFrom
    split
    · exact wfFrom_mono (Nat.le_succ k) (ofBytesFrom_wfFrom (k + 1) bs)
    · simp [Memory.wfFrom, *, ofBytesFrom_wfFrom (k + 1) bs]

/-- A buffer built from bytes is in canonical form. -/
theorem ofBytes_wf (bs : List Byte) : Memory.wf (Memory.ofBytes bs) = true := ofBytesFrom_wfFrom 0 bs

theorem read_ofBytesFrom : ∀ (k x : Nat) (bs : List Byte),
    Memory.read (Memory.ofBytesFrom k bs) (k + x) = bs[x]?.getD 0#8
  | _, _, [] => by simp [Memory.ofBytesFrom, Memory.read]
  | k, 0, b :: bs => by
    unfold Memory.ofBytesFrom
    split
    · rename_i hb
      simpa [hb] using read_below (Nat.lt_succ_self k) (ofBytesFrom_wfFrom (k + 1) bs)
    · simp [Memory.read]
  | k, x + 1, b :: bs => by
    have ih := read_ofBytesFrom (k + 1) x bs
    rw [show k + 1 + x = k + (x + 1) by omega] at ih
    unfold Memory.ofBytesFrom
    split
    · simpa using ih
    · simpa [Memory.read] using ih

/-- A buffer built from bytes reads as those bytes. -/
theorem read_ofBytes (bs : List Byte) (x : Nat) : Memory.read (Memory.ofBytes bs) x = bs[x]?.getD 0#8 := by
  simpa [Memory.ofBytes] using read_ofBytesFrom 0 x bs

@[simp] theorem bytes_length (m : Memory) (n : Nat) : (Memory.bytes m n).length = n := by simp [Memory.bytes]

theorem bytes_getElem? (m : Memory) {n k : Nat} (h : k < n) : (Memory.bytes m n)[k]? = some (Memory.read m k) := by
  simp [Memory.bytes, h]

/-- The bytes of a buffer built from bytes are those bytes. -/
theorem bytes_ofBytes (bs : List Byte) : Memory.bytes (Memory.ofBytes bs) bs.length = bs := by
  apply List.ext_getElem? ; intro k
  by_cases h : k < bs.length
  · rw [bytes_getElem? _ h, read_ofBytes]; simp [h]
  · simp [h, Memory.bytes]

theorem ext_from {lo : Nat} : ∀ {m m' : Memory}, Memory.wfFrom lo m = true → Memory.wfFrom lo m' = true →
    (∀ a, Memory.read m a = Memory.read m' a) → m = m'
  | [], [], _, _, _ => rfl
  | [], (a, b) :: m', _, h', he => by
    simp only [Memory.wfFrom, Bool.and_eq_true, decide_eq_true_eq] at h'
    have := he a
    simp [Memory.read] at this
    exact absurd this.symm h'.1.2
  | (a, b) :: m, [], h, _, he => by
    simp only [Memory.wfFrom, Bool.and_eq_true, decide_eq_true_eq] at h
    have := he a
    simp [Memory.read] at this
    exact absurd this h.1.2
  | (a, b) :: m, (a', b') :: m', h, h', he => by
    simp only [Memory.wfFrom, Bool.and_eq_true, decide_eq_true_eq] at h h'
    obtain ⟨⟨_, hb⟩, hm⟩ := h
    obtain ⟨⟨_, hb'⟩, hm'⟩ := h'
    have haa : a = a' := by
      rcases Nat.lt_trichotomy a a' with hlt | heq | hlt
      · have := he a
        simp only [Memory.read, if_neg (show a ≠ a' by omega)] at this
        rw [read_below (by omega) hm'] at this
        exact absurd this hb
      · exact heq
      · have := he a'
        simp only [Memory.read, if_neg (show a' ≠ a by omega)] at this
        rw [read_below (by omega) hm] at this
        exact absurd this.symm hb'
    subst haa
    have hbb : b = b' := by simpa [Memory.read] using he a
    subst hbb
    have : m = m' := ext_from hm hm' (fun x => by
      by_cases hx : x = a
      · subst hx; rw [read_below (by omega) hm, read_below (by omega) hm']
      · simpa [Memory.read, hx] using he x)
    rw [this]

/-- Two canonical buffers that read alike are the same data. -/
theorem eq_of_read_eq {m m' : Memory} (h : Memory.wf m = true) (h' : Memory.wf m' = true)
    (he : ∀ a, Memory.read m a = Memory.read m' a) : m = m' :=
  ext_from h h' he

/-- MemRead below L answers the byte. -/
theorem memRead_ok {m : Memory} {len : Word32} {a : Nat} (h : a < len.toNat) : memRead m len a = .ok (Memory.read m a) := by
  simp [memRead, h]

end Sys2Proof.Machine
end

