-- ==== Sys2Proof/Laws/PerInstr.lean ====
section
/-! SUPPORT. Per-instruction families, one lemma per constructor. -/

namespace Sys2Proof.Laws.TableWord

/-- An instruction's nibble code, as a table word, decodes to it; a port command has no code. -/
def Statement (i : Instr) : Prop :=
  i.wellFormed = true ∧ ∀ n, encodeCode i = some n → decodeTableWord 4 n.toNat = some i

theorem decP0 : Statement .decP0 := ⟨rfl, by rintro _ ⟨⟩; decide⟩
theorem decP1 : Statement .decP1 := ⟨rfl, by rintro _ ⟨⟩; decide⟩
theorem decP2 : Statement .decP2 := ⟨rfl, by rintro _ ⟨⟩; decide⟩
theorem decP3 : Statement .decP3 := ⟨rfl, by rintro _ ⟨⟩; decide⟩
theorem decP4 : Statement .decP4 := ⟨rfl, by rintro _ ⟨⟩; decide⟩
theorem decP5 : Statement .decP5 := ⟨rfl, by rintro _ ⟨⟩; decide⟩
theorem decP6 : Statement .decP6 := ⟨rfl, by rintro _ ⟨⟩; decide⟩
theorem decP7 : Statement .decP7 := ⟨rfl, by rintro _ ⟨⟩; decide⟩
theorem decN0 : Statement .decN0 := ⟨rfl, by rintro _ ⟨⟩; decide⟩
theorem decN1 : Statement .decN1 := ⟨rfl, by rintro _ ⟨⟩; decide⟩
theorem decN2 : Statement .decN2 := ⟨rfl, by rintro _ ⟨⟩; decide⟩
theorem decN3 : Statement .decN3 := ⟨rfl, by rintro _ ⟨⟩; decide⟩
theorem decN4 : Statement .decN4 := ⟨rfl, by rintro _ ⟨⟩; decide⟩
theorem decN5 : Statement .decN5 := ⟨rfl, by rintro _ ⟨⟩; decide⟩
theorem decN6 : Statement .decN6 := ⟨rfl, by rintro _ ⟨⟩; decide⟩
theorem decN7 : Statement .decN7 := ⟨rfl, by rintro _ ⟨⟩; decide⟩
theorem reset : Statement .reset := ⟨rfl, by rintro _ ⟨⟩⟩
theorem init : Statement .init := ⟨rfl, by rintro _ ⟨⟩⟩
theorem idle : Statement .idle := ⟨rfl, by rintro _ ⟨⟩⟩
theorem framerStart : Statement .framerStart := ⟨rfl, by rintro _ ⟨⟩⟩

end Sys2Proof.Laws.TableWord
end

