-- ==== Sys2Proof/Laws/Step.lean ====
section
/-! SUPPORT. What one edge can do: inversion lemmas for placing, fetching, executing and stepping. -/

namespace Sys2Proof.Machine

/-- Placing changes the buffer at most, and only outside a file or under RESET. -/
theorem placeBuffer_cases {s s₀ : State} (h : placeBuffer s = .ok s₀) :
    (s.now.place = none ∧ s₀ = s) ∨
    (∃ m, s.now.place = some m ∧ (s.fr.busy = false ∨ s.now.pins.rst = true) ∧ s₀ = { s with input := m }) := by
  unfold placeBuffer at h
  split at h
  · exact .inl ⟨‹_›, by simpa using h.symm⟩
  · rename_i m hm
    split at h
    · cases h
    · rename_i hc
      refine .inr ⟨m, hm, ?_, by simpa using h.symm⟩
      cases hb : s.fr.busy <;> cases hr : s.now.pins.rst <;> simp_all

/-- Placing leaves everything but the buffer. -/
theorem placeBuffer_keeps {s s₀ : State} (h : placeBuffer s = .ok s₀) :
    s₀.dec = s.dec ∧ s₀.fr = s.fr ∧ s₀.wr = s.wr ∧ s₀.sink = s.sink ∧ s₀.now = s.now ∧ s₀.later = s.later := by
  rcases placeBuffer_cases h with ⟨_, rfl⟩ | ⟨m, _, _, rfl⟩ <;> exact ⟨rfl, rfl, rfl, rfl, rfl, rfl⟩

/-- Everything the selection of an edge's command can answer. -/
theorem fetch_cases {s : State} {i : Instr} (h : fetch s = .ok i) :
    (s.now.pins.rst = true ∧ i = .reset) ∨
    (s.now.pins.rst = false ∧ s.fr.busy = true ∧ s.fr.stage = .feed ∧ ∃ n, feedNibble s = .ok n ∧ i = decodeCode n) ∨
    (s.now.pins.rst = false ∧ s.fr.busy = true ∧ s.fr.stage ≠ .feed ∧ i = .idle) ∨
    (s.now.pins.rst = false ∧ s.fr.busy = false ∧ s.now.pins.start = true ∧ i = .framerStart) ∨
    (s.now.pins.rst = false ∧ s.fr.busy = false ∧ s.now.pins.start = false ∧
      ((s.now.pins.init = true ∧ i = .init) ∨
       (s.now.pins.init = false ∧ s.now.pins.inValid = true ∧ i = decodeCode s.now.pins.inNibble) ∨
       (s.now.pins.init = false ∧ s.now.pins.inValid = false ∧ i = .idle))) := by
  unfold fetch commandLines at h
  cases hr : s.now.pins.rst
  · cases hb : s.fr.busy
    · cases hs : s.now.pins.start <;> cases hi : s.now.pins.init <;> cases hv : s.now.pins.inValid <;>
        simp_all [Except.map, decodeCommand]
    · by_cases hf : s.fr.stage = .feed
      · cases hn : feedNibble s <;> simp_all [Except.map, decValid, decodeCommand, Command.low]
      · simp_all [Except.map, decValid, decodeCommand, Command.low]
  · simp_all [Except.map, decodeCommand, Command.low]

/-- `step` is the parametric machine's edge at the build this model runs. -/
theorem step_eq (s : State) : step s = stepOn Config.build s := by
  have h : exec = execOn Config.build := funext fun i => funext fun s => exec_eq i s
  rw [step, stepOn, h]

/-- A step that goes on: the buffer placed, a command selected and performed, the edge finished. -/
theorem stepOn_next {P : Params} {s t : State} (h : stepOn P s = .next t) :
    ∃ s₀ i s₁, placeBuffer s = .ok s₀ ∧ fetch s₀ = .ok i ∧ execOn P i s₀ = .next s₁ ∧ t = finishEdge P i s₀ s₁ := by
  unfold stepOn stepBy at h
  split at h
  · cases h
  · rename_i s₀ hp
    split at h
    · cases h
    · rename_i i hf
      obtain ⟨s₁, he⟩ := execOn_total P i s₀
      rw [he] at h
      exact ⟨s₀, i, s₁, hp, hf, he, by simpa using h.symm⟩

/-- The step of a placed buffer, a selected command and its meaning. -/
theorem stepOn_of {P : Params} {s s₀ s₁ : State} {i : Instr} (hp : placeBuffer s = .ok s₀) (hf : fetch s₀ = .ok i)
    (he : execOn P i s₀ = .next s₁) : stepOn P s = .next (finishEdge P i s₀ s₁) := by
  simp [stepOn, stepBy, hp, hf, he]

theorem step_next {s t : State} (h : step s = .next t) :
    ∃ s₀ i s₁, placeBuffer s = .ok s₀ ∧ fetch s₀ = .ok i ∧ exec i s₀ = .next s₁ ∧ t = finishEdge Config.build i s₀ s₁ := by
  simpa only [exec_eq] using stepOn_next (step_eq s ▸ h)

theorem step_of {s s₀ s₁ : State} {i : Instr} (hp : placeBuffer s = .ok s₀) (hf : fetch s₀ = .ok i)
    (he : exec i s₀ = .next s₁) : step s = .next (finishEdge Config.build i s₀ s₁) :=
  (step_eq s).trans (stepOn_of hp hf (exec_eq i s₀ ▸ he))

theorem stepOn_refuse {P : Params} {s : State} {r : Refusal} (h : placeBuffer s = .error r) : stepOn P s = .refused r := by
  simp [stepOn, stepBy, h]

theorem stepOn_fault {P : Params} {s s₀ : State} {f : Fault} (h : placeBuffer s = .ok s₀) (hf : fetch s₀ = .error f) :
    stepOn P s = .fault f := by
  simp [stepOn, stepBy, h, hf]

/-- A step is refused exactly where placing is. -/
theorem stepOn_refused_iff {P : Params} {s : State} {r : Refusal} : stepOn P s = .refused r ↔ placeBuffer s = .error r := by
  cases hp : placeBuffer s with
  | error r' => simp [stepOn_refuse hp]
  | ok s₀ =>
    cases hf : fetch s₀ with
    | error f => simp [stepOn_fault hp hf]
    | ok i =>
      obtain ⟨s₁, he⟩ := execOn_total P i s₀
      simp [stepOn_of hp hf he]

/-- A step faults exactly where the command's selection does. -/
theorem stepOn_fault_iff {P : Params} {s : State} {f : Fault} :
    stepOn P s = .fault f ↔ ∃ s₀, placeBuffer s = .ok s₀ ∧ fetch s₀ = .error f := by
  cases hp : placeBuffer s with
  | error r => simp [stepOn_refuse hp]
  | ok s₀ =>
    cases hf : fetch s₀ with
    | error f' => simp [stepOn_fault hp hf, hf]
    | ok i =>
      obtain ⟨s₁, he⟩ := execOn_total P i s₀
      simp [stepOn_of hp hf he, hf]

theorem step_refused_iff {s : State} {r : Refusal} : step s = .refused r ↔ placeBuffer s = .error r :=
  step_eq s ▸ stepOn_refused_iff

theorem step_fault_iff {s : State} {f : Fault} :
    step s = .fault f ↔ ∃ s₀, placeBuffer s = .ok s₀ ∧ fetch s₀ = .error f := step_eq s ▸ stepOn_fault_iff

/-- The state an edge leaves, before the next edge's pins: the decoder's command is one of these five. -/
inductive EdgeKind (P : Params) (s : State) : State → Prop
  | reset : s.now.pins.rst = true →
      EdgeKind P s { s with dec := Decoder.initial P, fr := Framer.initial, wr := Writer.initial }
  | start : s.now.pins.rst = false → s.fr.busy = false → s.now.pins.start = true →
      EdgeKind P s { s with dec := Decoder.initial P, fr := startFramer s.fr s.now.pins,
                            wr := startWriter s.wr s.now.pins }
  | feed (n : Nibble) : s.now.pins.rst = false → s.fr.busy = true → s.fr.stage = .feed → feedNibble s = .ok n →
      EdgeKind P s { s with dec := decodeNibble P s.dec n, fr := framerTick P s,
                            wr := writerTick P s, sink := sinkTick s }
  | quiet : s.now.pins.rst = false → s.fr.busy = true → s.fr.stage ≠ .feed →
      EdgeKind P s { s with dec := { s.dec with outValid := false }, fr := framerTick P s,
                            wr := writerTick P s, sink := sinkTick s }
  | direct (d : Decoder) : s.now.pins.rst = false → s.fr.busy = false → s.now.pins.start = false →
      d = (if s.now.pins.init then Decoder.initial P
           else if s.now.pins.inValid then decodeNibble P s.dec s.now.pins.inNibble
           else { s.dec with outValid := false }) →
      EdgeKind P s { s with dec := d, fr := framerTick P s,
                            wr := writerTick P s, sink := sinkTick s }

/-- Beside every command but RESET and START the framer, the writer and the sink make their own progress. -/
theorem blocksTick_code {i : Instr} {n : Nibble} (h : encodeCode i = some n) (P : Params) (s s' : State) :
    blocksTick P i s s' = { s' with fr := framerTick P s, wr := writerTick P s, sink := sinkTick s } := by
  cases i <;> first | rfl | cases h

theorem blocksTick_decodeCode (P : Params) (n : Nibble) (s s' : State) :
    blocksTick P (decodeCode n) s s' = { s' with fr := framerTick P s, wr := writerTick P s, sink := sinkTick s } :=
  blocksTick_code (encodeCode_decodeCode n) P s s'

/-- Everything one step can do: the buffer placed, then one of five kinds of edge, then the next edge's pins. -/
theorem stepOn_cases {P : Params} {s t : State} (h : stepOn P s = .next t) :
    ∃ s₀ s₁, placeBuffer s = .ok s₀ ∧ EdgeKind P s₀ s₁ ∧ t = nextDrive s₁ := by
  obtain ⟨s₀, i, s₁, hp, hf, he, rfl⟩ := stepOn_next h
  refine ⟨s₀, _, hp, ?_, rfl⟩
  obtain ⟨hr, rfl⟩ | ⟨hr, hb, hs, n, hn, rfl⟩ | ⟨hr, hb, hs, rfl⟩ | ⟨hr, hb, hs, rfl⟩ | ⟨hr, hb, hs, hc⟩ := fetch_cases hf
  · obtain rfl : _ = s₁ := by simpa [execOn, execResetOn] using he
    exact .reset hr
  · rw [execOn_decodeCode] at he
    obtain rfl : _ = s₁ := by simpa using he
    rw [blocksTick_decodeCode]
    exact .feed n hr hb hs hn
  · obtain rfl : _ = s₁ := by simpa [execOn, execIdle] using he
    exact .quiet hr hb hs
  · obtain rfl : _ = s₁ := by simpa [execOn, execFramerStartOn, hb] using he
    exact .start hr hb hs
  · obtain ⟨hi, rfl⟩ | ⟨hi, hv, rfl⟩ | ⟨hi, hv, rfl⟩ := hc
    · obtain rfl : _ = s₁ := by simpa [execOn, execInitOn] using he
      exact .direct _ hr hb hs (by simp [hi])
    · rw [execOn_decodeCode] at he
      obtain rfl : _ = s₁ := by simpa using he
      rw [blocksTick_decodeCode]
      exact .direct _ hr hb hs (by simp [hi, hv])
    · obtain rfl : _ = s₁ := by simpa [execOn, execIdle] using he
      exact .direct _ hr hb hs (by simp [hi, hv])

theorem step_cases {s t : State} (h : step s = .next t) :
    ∃ s₀ s₁, placeBuffer s = .ok s₀ ∧ EdgeKind Config.build s₀ s₁ ∧ t = nextDrive s₁ := stepOn_cases (step_eq s ▸ h)

/-- With nothing placed, a feed edge decodes the framer's nibble beside the framer's and the writer's progress. -/
theorem step_feed {s : State} {n : Nibble} (hb : s.fr.busy = true) (hs : s.fr.stage = .feed) (hr : s.now.pins.rst = false)
    (hp : s.now.place = none) (hn : feedNibble s = .ok n) :
    step s = .next (nextDrive { s with dec := decodeNibble Config.build s.dec n, fr := framerTick Config.build s,
                                       wr := writerTick Config.build s, sink := sinkTick s }) := by
  have hpl : placeBuffer s = .ok s := by simp [placeBuffer, hp]
  have hf : fetch s = .ok (decodeCode n) := by
    simp [fetch, commandLines, hr, hb, decValid, hs, hn, Except.map, decodeCommand, Command.low]
  rw [step_of hpl hf (exec_decodeCode n s), finishEdge, blocksTick_decodeCode]; rfl

/-- With nothing placed, any other edge of a file is IDLE for the decoder beside the framer's and the writer's progress. -/
theorem step_quiet {s : State} (hb : s.fr.busy = true) (hs : s.fr.stage ≠ .feed) (hr : s.now.pins.rst = false)
    (hp : s.now.place = none) :
    step s = .next (nextDrive { s with dec := { s.dec with outValid := false }, fr := framerTick Config.build s,
                                       wr := writerTick Config.build s, sink := sinkTick s }) := by
  have hpl : placeBuffer s = .ok s := by simp [placeBuffer, hp]
  have hf : fetch s = .ok .idle := by
    simp [fetch, commandLines, hr, hb, decValid, hs, Except.map, decodeCommand, Command.low]
  rw [step_of hpl hf (exec_idle s)]; rfl

/-- A step that goes on during a file without RESET placed nothing, and is one of the two edges above. -/
theorem step_busy_cases {s t : State} (hb : s.fr.busy = true) (hr : s.now.pins.rst = false) (h : step s = .next t) :
    s.now.place = none ∧ ((s.fr.stage = .feed ∧ ∃ n, feedNibble s = .ok n) ∨ s.fr.stage ≠ .feed) := by
  obtain ⟨s₀, s₁, hp, hk, ht⟩ := step_cases h
  clear h ht
  obtain ⟨h1, rfl⟩ : s.now.place = none ∧ s₀ = s := by
    rcases placeBuffer_cases hp with h | ⟨m, _, h, _⟩
    · exact h
    · simp [hb, hr] at h
  refine ⟨h1, ?_⟩
  cases hk with
  | reset h => simp [hr] at h
  | start _ h => simp [hb] at h
  | feed n _ _ h h2 => exact .inl ⟨h, n, h2⟩
  | quiet _ _ h => exact .inr h
  | direct d _ h => simp [hb] at h

end Sys2Proof.Machine
end

