-- ==== Sys2Proof/Laws/Run.lean ====
section
/-! SUPPORT. Runs of several edges: one edge more, two runs joined, and a drive that stays quiet. -/

namespace Sys2Proof.Machine

theorem core_run_succ (M : Host.Core) (s u : M.State) (h : M.step s = .next u) (k : Nat) : M.run (k + 1) s = M.run k u := by
  simp only [Host.Core.run, h]

theorem core_run_add (M : Host.Core) : ∀ (a b : Nat) (s t : M.State), M.run a s = .next t → M.run (a + b) s = M.run b t
  | 0, b, s, t, h => by cases h; rw [Nat.zero_add]
  | a + 1, b, s, t, h => by
    simp only [Host.Core.run] at h
    rw [show a + 1 + b = (a + b) + 1 by omega]
    simp only [Host.Core.run]
    cases hs : M.step s <;> simp only [hs] at h ⊢
    · exact core_run_add M a b _ t h
    · cases h
    · cases h

/-- A run whose first edge is known. -/
theorem run_succ {s u : State} (h : step s = .next u) (k : Nat) :
    Sys2Proof.core.run (k + 1) s = Sys2Proof.core.run k u := core_run_succ Sys2Proof.core s u h k

/-- A run of `a` edges and then of `b`. -/
theorem run_add {a : Nat} {s t : State} (h : Sys2Proof.core.run a s = .next t) (b : Nat) :
    Sys2Proof.core.run (a + b) s = Sys2Proof.core.run b t := core_run_add Sys2Proof.core a b s t h

/-- A drive that places nothing, aborts nothing, resets nothing, and is followed by itself. -/
def quietDrive (d : Drive) : Prop := d.place = none ∧ d.pins.rst = false ∧ d.abort = false ∧ releaseDrive d = d

theorem quietDrive_release (d : Drive) : quietDrive (releaseDrive d) := ⟨rfl, rfl, rfl, rfl⟩

/-- After the script's end a quiet drive stays. -/
theorem nextDrive_quiet {s : State} (hl : s.later = []) (hq : quietDrive s.now) : nextDrive s = s := by
  unfold nextDrive; rw [hl]; simp only; rw [hq.2.2.2, ← hl]

end Sys2Proof.Machine
end

