-- ==== Sys2Proof/Laws/Writer.lean ====
section
/-! SUPPORT. The writer's edges, one lemma per case. -/

namespace Sys2Proof.Machine

@[simp] theorem writerTick_sampleBuf (P : Params) (s : State) : (writerTick P s).sampleBuf = writerBuffer P s := by
  simp only [writerTick]; repeat' split
  all_goals rfl

@[simp] theorem writerTick_sampleRate (P : Params) (s : State) : (writerTick P s).sampleRate = s.wr.sampleRate := by
  simp only [writerTick]; repeat' split
  all_goals rfl

theorem writerBuffer_valid {P : Params} {s : State} (h : s.dec.outValid = true) :
    writerBuffer P s = appendSample P s.wr.sampleBuf (outSample s.dec) := by
  simp [writerBuffer, sValid, sData, h]

theorem writerBuffer_invalid {P : Params} {s : State} (h : s.dec.outValid = false) : writerBuffer P s = s.wr.sampleBuf := by
  simp [writerBuffer, sValid, h]

theorem appendSample_room {P : Params} {buf : List Sample} {x : Sample} (h : buf.length < sampleCapacity P) :
    appendSample P buf x = buf ++ [x] := if_pos h

theorem appendSample_cases (P : Params) (buf : List Sample) (x : Sample) :
    (buf.length < sampleCapacity P ∧ appendSample P buf x = buf ++ [x]) ∨
    (sampleCapacity P ≤ buf.length ∧ appendSample P buf x = buf) := by
  unfold appendSample; split
  · exact .inl ⟨‹_›, rfl⟩
  · exact .inr ⟨by omega, rfl⟩

/-- An idle writer that is not asked to finish only appends. -/
theorem writerTick_rest {P : Params} {s : State} (hw : s.wr.stage = .idle) (hf : finishPort s = false) :
    writerTick P s = { s.wr with sampleBuf := writerBuffer P s, wDone := false } := by
  simp [writerTick, hw, hf]

theorem writerTick_begin {P : Params} {s : State} (hw : s.wr.stage = .idle) (hf : finishPort s = true)
    (hr : rateLegal s.wr.sampleRate = true) :
    writerTick P s = { s.wr with sampleBuf := writerBuffer P s, wDone := false, staging := stageByte P s.wr, stage := .staging } := by
  simp [writerTick, hw, hf, hr]

theorem writerTick_illegal {P : Params} {s : State} (hw : s.wr.stage = .idle) (hf : finishPort s = true)
    (hr : rateLegal s.wr.sampleRate = false) :
    writerTick P s = { s.wr with sampleBuf := writerBuffer P s, wDone := true, wOk := false } := by
  simp [writerTick, hw, hf, hr]

theorem writerTick_commit {P : Params} {s : State} (hw : s.wr.stage = .staging) (hc : sinkCommit s.wr = true) :
    writerTick P s = { s.wr with sampleBuf := writerBuffer P s, wDone := true, wOk := !s.now.pins.sinkErr,
                                 staging := [], stage := .idle } := by
  simp [writerTick, hw, hc]

theorem writerTick_stage {P : Params} {s : State} (hw : s.wr.stage = .staging) (hc : sinkCommit s.wr = false) :
    writerTick P s = { s.wr with sampleBuf := writerBuffer P s, wDone := false, staging := stageByte P s.wr } := by
  simp [writerTick, hw, hc]

theorem rateLegal_eq_true {r : Word32} : rateLegal r = true ↔ 1 ≤ r.toNat ∧ r.toNat ≤ 2 ^ 31 - 1 := by
  unfold rateLegal Config.maxSampleRate
  rw [Bool.and_eq_true, decide_eq_true_eq, decide_eq_true_eq]

theorem rateLegal_eq_false {r : Word32} : rateLegal r = false ↔ r.toNat = 0 ∨ 2 ^ 31 ≤ r.toNat := by
  rw [← Bool.not_eq_true, rateLegal_eq_true]; omega

theorem sinkCommit_staging {w : Writer} (h : w.stage = .staging) :
    sinkCommit w = true ↔ imageLength w.sampleBuf.length ≤ w.staging.length := by
  unfold sinkCommit; rw [Bool.and_eq_true, decide_eq_true_eq, decide_eq_true_eq]; exact and_iff_right h

/-- Only a commit can give the sink anything. -/
theorem sinkTick_quiet {s : State} (h : sinkCommit s.wr = false) : sinkTick s = s.sink := by simp [sinkTick, h]

theorem sinkCommit_idle {w : Writer} (h : w.stage = .idle) : sinkCommit w = false := by simp [sinkCommit, h]

end Sys2Proof.Machine
end

