-- ==== Sys2Proof/Laws/Schedule.lean ====
section
/-! SUPPORT. Stretches of a file under quiet pins: the START edge, the signature test, the feed loop. -/

namespace Sys2Proof.Machine

/-- An edge inside a file before the writer's answer: busy, no outcome yet, and the sink untouched. -/
def inFile (sink : List Image) (s : State) : Prop :=
  s.fr.busy = true ∧ s.fr.status = .none ∧ s.fr.done = false ∧ s.sink = sink

/-- `k` edges from `s` to `t`, every state before `t` inside the file. -/
def stretch (sink : List Image) (k : Nat) (s t : State) : Prop :=
  Sys2Proof.core.run k s = .next t ∧ ∀ j, j < k → ∃ u, Sys2Proof.core.run j s = .next u ∧ inFile sink u

theorem stretch_zero (sink : List Image) (s : State) : stretch sink 0 s s :=
  ⟨rfl, fun j h => absurd h (Nat.not_lt_zero j)⟩

theorem stretch_cons {sink : List Image} {k : Nat} {s u t : State} (hb : inFile sink s) (h : step s = .next u)
    (hp : stretch sink k u t) : stretch sink (k + 1) s t := by
  refine ⟨by rw [run_succ h]; exact hp.1, fun j hj => ?_⟩
  cases j with
  | zero => exact ⟨s, rfl, hb⟩
  | succ j => rw [run_succ h]; exact hp.2 j (by omega)

theorem stretch_one {sink : List Image} {s u : State} (hb : inFile sink s) (h : step s = .next u) : stretch sink 1 s u :=
  stretch_cons hb h (stretch_zero sink u)

theorem stretch_trans {sink : List Image} {a b : Nat} {s t u : State} (h : stretch sink a s t) (h' : stretch sink b t u) :
    stretch sink (a + b) s u := by
  refine ⟨by rw [run_add h.1 b]; exact h'.1, fun j hj => ?_⟩
  by_cases hja : j < a
  · exact h.2 j hja
  · obtain ⟨i, rfl⟩ := Nat.exists_eq_add_of_le (Nat.le_of_not_lt hja)
    rw [run_add h.1 i]; exact h'.2 i (by omega)

/-- A feed edge under quiet pins. -/
theorem step_feed_quiet {s : State} {n : Nibble} (hl : s.later = []) (hq : quietDrive s.now) (hb : s.fr.busy = true)
    (hs : s.fr.stage = .feed) (hn : feedNibble s = .ok n) :
    step s = .next { s with dec := decodeNibble Config.build s.dec n, fr := framerTick Config.build s,
                            wr := writerTick Config.build s, sink := sinkTick s } := by
  rw [step_feed hb hs hq.2.1 hq.1 hn, nextDrive_quiet]; exact hl; exact hq

/-- Any other edge of a file under quiet pins. -/
theorem step_other_quiet {s : State} (hl : s.later = []) (hq : quietDrive s.now) (hb : s.fr.busy = true)
    (hs : s.fr.stage ≠ .feed) :
    step s = .next { s with dec := { s.dec with outValid := false }, fr := framerTick Config.build s,
                            wr := writerTick Config.build s, sink := sinkTick s } := by
  rw [step_quiet hb hs hq.2.1 hq.1, nextDrive_quiet]; exact hl; exact hq

/-- The START edge of a file, after which the script is over. -/
theorem step_start {s : State} (hb : s.fr.busy = false) (hr : s.now.pins.rst = false) (hs : s.now.pins.start = true)
    (hl : s.later = []) :
    step s = .next { dec := Decoder.initial Config.build, fr := startFramer s.fr s.now.pins, wr := startWriter s.wr s.now.pins,
                     input := s.now.place.getD s.input, sink := s.sink, now := releaseDrive s.now, later := [] } := by
  have hp : placeBuffer s = .ok { s with input := s.now.place.getD s.input } := by
    unfold placeBuffer; split
    · rename_i h; rw [h]; rfl
    · rename_i m h; rw [h]; simp [hb]
  have hf : fetch { s with input := s.now.place.getD s.input } = .ok .framerStart := by
    simp [fetch, commandLines, hr, hb, hs, Except.map, decodeCommand]
  rw [step_of hp hf (exec_framerStart (by exact hb))]
  simp only [finishEdge, blocksTick, nextDrive]; rw [hl]

/-- The samples buffered, with the one on `out_sample` that the next edge appends. -/
def pendingSamples (s : State) : List Sample := s.wr.sampleBuf ++ (if s.dec.outValid then [outSample s.dec] else [])

theorem writerBuffer_pending {s : State} (h : (pendingSamples s).length ≤ sampleCapacity Config.build) :
    writerBuffer Config.build s = pendingSamples s := by
  unfold pendingSamples at *
  cases hv : s.dec.outValid
  · simp [writerBuffer_invalid hv]
  · simp [hv] at h; rw [writerBuffer_valid hv, appendSample_room (by omega)]; simp

/-- What the feed loop keeps from one byte to the next. -/
structure Feeding (sink : List Image) (s : State) : Prop where
  later : s.later = []
  quiet : quietDrive s.now
  busy : s.fr.busy = true
  phase : s.fr.phase = .high
  status : s.fr.status = .none
  done : s.fr.done = false
  aborted : s.fr.aborted = false
  idle : s.wr.stage = .idle
  unanswered : s.wr.wDone = false
  sinkKept : s.sink = sink

/-- One payload byte: two edges, its high nibble and then its low one. -/
theorem feed_byte {sink : List Image} {s : State} (h : Feeding sink s) (hs : s.fr.stage = .feed)
    (hc : s.fr.cursor < s.fr.len.toNat) (hcap : (pendingSamples s).length + 2 ≤ sampleCapacity Config.build) :
    ∃ t, stretch sink 2 s t ∧ Feeding sink t ∧
      t.fr.stage = (if s.fr.len.toNat ≤ s.fr.cursor + 1 then .drain else .feed) ∧
      t.fr.cursor = s.fr.cursor + 1 ∧ t.fr.len = s.fr.len ∧ t.fr.mode = s.fr.mode ∧ t.input = s.input ∧ t.now = s.now ∧
      t.wr = { s.wr with sampleBuf := t.wr.sampleBuf } ∧
      t.dec = (decodeNibbles Config.build s.dec (nibblesOf [Memory.read s.input s.fr.cursor])).1 ∧
      pendingSamples t =
        pendingSamples s ++ (decodeNibbles Config.build s.dec (nibblesOf [Memory.read s.input s.fr.cursor])).2 := by
  obtain ⟨hl, hq, hb, hp, hst, hd, ha, hw, hwd, hsk⟩ := h
  have hf : ∀ v : State, v.fr.stage = .feed → finishPort v = false := by intro v h; simp [finishPort, h]
  have e1 := step_feed_quiet (n := highNibble (Memory.read s.input s.fr.cursor)) hl hq hb hs
    (by simp [feedNibble, hp, memRead_ok hc, Except.map])
  have p1 : pendingSamples s = writerBuffer Config.build s := (writerBuffer_pending (by omega)).symm
  rw [framerTick_feed hb hs, writerTick_rest hw (hf s hs), sinkTick_quiet (sinkCommit_idle hw)] at e1
  simp only [feedTick, hp, hq.2.2.1, ← p1, ha, Bool.or_false] at e1
  simp only [Bool.false_eq_true, if_false] at e1
  generalize hu : (State.mk _ _ _ _ _ _ _) = u at e1
  have e2 := step_feed_quiet (s := u) (n := lowNibble (Memory.read s.input s.fr.cursor)) (by subst hu; exact hl)
    (by subst hu; exact hq) (by subst hu; exact hb) (by subst hu; rfl) (by subst hu; simp [feedNibble])
  rw [framerTick_feed (by subst hu; exact hb) (by subst hu; rfl), writerTick_rest (by subst hu; exact hw) (hf u (by subst hu; rfl)),
    sinkTick_quiet (sinkCommit_idle (by subst hu; exact hw))] at e2
  have hp2 : pendingSamples u = pendingSamples s ++
      [sampleOf (decodeNibble Config.build s.dec (highNibble (Memory.read s.input s.fr.cursor))).predicted] := by
    subst hu; simp [pendingSamples, outSample, decodeNibble]
  have p2 : pendingSamples u = writerBuffer Config.build u := (writerBuffer_pending (by rw [hp2]; simp; omega)).symm
  rw [← p2, hp2] at e2
  refine ⟨_, stretch_cons ⟨hb, hst, hd, hsk⟩ e1
    (stretch_one (by subst hu; exact ⟨hb, hst, rfl, hsk⟩) e2), ?_⟩
  subst hu
  refine ⟨⟨hl, hq, hb, rfl, hst, rfl, ?_, hw, rfl, hsk⟩, ?_, rfl, rfl, rfl, rfl, rfl, ?_, ?_, ?_⟩
  · simp [feedTick, hq.2.2.1]
  · simp [feedTick, hq.2.2.1]
  · simp [hwd]
  · simp [nibblesOf, decodeNibbles]
  · simp [pendingSamples, outSample, decodeNibble, nibblesOf, decodeNibbles]

/-- The bytes of a buffer from an offset on. -/
def bytesFrom (m : Memory) (a n : Nat) : List Byte := (List.range n).map (fun i => Memory.read m (a + i))

theorem bytesFrom_succ (m : Memory) (a n : Nat) : bytesFrom m a (n + 1) = Memory.read m a :: bytesFrom m (a + 1) n := by
  rw [bytesFrom, List.range_succ_eq_map, List.map_cons, List.map_map]
  simp [bytesFrom, Function.comp_def, Nat.add_assoc, Nat.add_comm 1]

/-- The whole feed loop over the `n + 1` bytes still to come: two edges a byte, to the drain. -/
theorem feed_loop (sink : List Image) : ∀ (n : Nat) (s : State), Feeding sink s → s.fr.stage = .feed →
    s.fr.len.toNat = s.fr.cursor + (n + 1) → (pendingSamples s).length + 2 * (n + 1) ≤ sampleCapacity Config.build →
    ∃ t, stretch sink (2 * (n + 1)) s t ∧ Feeding sink t ∧ t.fr.stage = .drain ∧ t.fr.mode = s.fr.mode ∧ t.now = s.now ∧
      t.wr = { s.wr with sampleBuf := t.wr.sampleBuf } ∧
      t.dec = (decodeNibbles Config.build s.dec (nibblesOf (bytesFrom s.input s.fr.cursor (n + 1)))).1 ∧
      pendingSamples t =
        pendingSamples s ++ (decodeNibbles Config.build s.dec (nibblesOf (bytesFrom s.input s.fr.cursor (n + 1)))).2
  | 0, s, h, hs, hlen, hcap => by
    obtain ⟨t, q1, q2, q3, q4, q5, q6, q7, q8, q9, q10, q11⟩ := feed_byte h hs (by omega) (by omega)
    exact ⟨t, q1, q2, by rw [q3, if_pos (by omega)], q6, q8, q9, q10, q11⟩
  | n + 1, s, h, hs, hlen, hcap => by
    obtain ⟨u, q1, q2, q3, q4, q5, q6, q7, q8, q9, q10, q11⟩ := feed_byte h hs (by omega) (by omega)
    have h2 : (pendingSamples u).length = (pendingSamples s).length + 2 := by
      rw [q11]; simp [nibblesOf, decodeNibbles]
    obtain ⟨t, r1, r2, r3, r4, r5, r6, r7, r8⟩ := feed_loop sink n u q2 (by rw [q3, if_neg (by omega)])
      (by rw [q4, q5]; omega) (by rw [h2]; omega)
    have hb : nibblesOf (bytesFrom s.input s.fr.cursor (n + 1 + 1)) = highNibble (Memory.read s.input s.fr.cursor) ::
        lowNibble (Memory.read s.input s.fr.cursor) :: nibblesOf (bytesFrom u.input u.fr.cursor (n + 1)) := by
      rw [bytesFrom_succ, q7, q4]; simp [nibblesOf]
    have hd : u.dec = decodeNibble Config.build (decodeNibble Config.build s.dec (highNibble (Memory.read s.input s.fr.cursor)))
        (lowNibble (Memory.read s.input s.fr.cursor)) := by
      rw [q10]; simp [nibblesOf, decodeNibbles]
    refine ⟨t, ?_, r2, r3, r4.trans q6, r5.trans q8, by rw [r6, q9], by rw [hb, r7, hd]; rfl, ?_⟩
    · exact (show 2 + 2 * (n + 1) = 2 * (n + 1 + 1) by omega) ▸ stretch_trans q1 r1
    · rw [hb, r8, q11, hd]; simp [nibblesOf, decodeNibbles]

/-- What the common length of two strings says. -/
theorem commonLength_spec : ∀ (as bs : List Byte), commonLength as bs ≤ as.length ∧ commonLength as bs ≤ bs.length ∧
    (∀ j, j < commonLength as bs → as[j]? = bs[j]?) ∧
    (commonLength as bs < as.length → commonLength as bs < bs.length → as[commonLength as bs]? ≠ bs[commonLength as bs]?)
  | [], bs => by simp [commonLength]
  | _ :: _, [] => by simp [commonLength]
  | a :: as, b :: bs => by
    obtain ⟨h1, h2, h3, h4⟩ := commonLength_spec as bs
    simp only [commonLength]
    split
    · rename_i hab
      refine ⟨by simpa using h1, by simpa using h2, fun j hj => ?_, by simpa using h4⟩
      cases j with
      | zero => simp [hab]
      | succ j => simpa using h3 j (by omega)
    · rename_i hab
      simp [hab]

theorem headerSignature_getElem? (k : Fin 7) :
    Config.headerSignature.toList[k.val]? = some (Config.headerSignature.get k) := by
  revert k; decide

theorem enterPayload_stage (P : Params) (f : Framer) (x : Stage) (m : Mode) :
    enterPayload P { f with stage := x } m = enterPayload P f m := by
  unfold enterPayload; simp only; split
  · rfl
  · split <;> rfl

/-- The signature byte at `k` is there exactly when the buffer agrees with the signature beyond `k`. -/
theorem signatureByteAt_iff {f : Framer} {m : Memory} {k : Fin 7}
    (hk : k.val ≤ commonLength (Memory.bytes m f.len.toNat) Config.headerSignature.toList) :
    signatureByteAt f m k ↔ k.val < commonLength (Memory.bytes m f.len.toNat) Config.headerSignature.toList := by
  obtain ⟨c1, _, c3, c4⟩ := commonLength_spec (Memory.bytes m f.len.toNat) Config.headerSignature.toList
  constructor
  · rintro ⟨h, h2⟩
    by_contra hlt
    have he : k.val = commonLength (Memory.bytes m f.len.toNat) Config.headerSignature.toList := by omega
    have := c4 (by rw [← he]; simpa using h) (by rw [← he]; simp)
    rw [← he, bytes_getElem? _ h, headerSignature_getElem?, h2] at this
    exact this rfl
  · intro hlt
    have hl : k.val < f.len.toNat := by simpa using (lt_of_lt_of_le hlt c1)
    have h := c3 k.val hlt
    rw [bytes_getElem? _ hl, headerSignature_getElem?] at h
    exact ⟨hl, by simpa using h⟩

/-- The mode is HEADERED exactly when the buffer agrees with the signature over all seven bytes. -/
theorem modeOf_commonLength (bs : List Byte) :
    modeOf bs = if commonLength bs Config.headerSignature.toList = 7 then .headered else .raw := by
  obtain ⟨c1, c2, c3, c4⟩ := commonLength_spec bs Config.headerSignature.toList
  have hs : Config.headerSignature.toList.length = 7 := by simp
  split
  · rename_i h
    apply modeOf_headered
    rw [List.prefix_iff_getElem?]
    intro i hi
    rw [c3 i (by omega), List.getElem?_eq_getElem hi]
  · rename_i h
    apply modeOf_raw
    intro hp
    obtain ⟨rest, rfl⟩ := hp
    apply c4 (by simp at c2 ⊢; omega) (by omega)
    rw [List.getElem?_append_left (by omega)]

/-- The signature test from byte `k` on, to the mode it settles. -/
theorem header_test (sink : List Image) : ∀ (e : Nat) (s : State) (k : Fin 7), s.later = [] → quietDrive s.now → s.fr.busy = true →
    s.fr.stage = .header k → s.fr.status = .none → s.fr.done = false → s.wr.wDone = false → s.sink = sink →
    s.dec.outValid = false → s.wr.stage = .idle →
    k.val ≤ commonLength (Memory.bytes s.input s.fr.len.toNat) Config.headerSignature.toList →
    k.val + (e + 1) = headerEdges (Memory.bytes s.input s.fr.len.toNat) →
    stretch sink (e + 1) s
      { s with fr := enterPayload Config.build s.fr (modeOf (Memory.bytes s.input s.fr.len.toNat)) } := by
  intro e
  induction e with
  | zero =>
    intro s k hl hq hb hs hst hd hwd hsk hov hw hk he
    have st := step_other_quiet hl hq hb (by simp [hs])
    rw [framerTick_header hb hs, writerTick_rest hw (by simp [finishPort, hs]), writerBuffer_invalid hov,
      sinkTick_quiet (sinkCommit_idle hw)] at st
    have hm : headerTick Config.build { s.fr with done := false } s.input k =
        enterPayload Config.build s.fr (modeOf (Memory.bytes s.input s.fr.len.toNat)) := by
      have hf : { s.fr with done := false } = s.fr := by rw [← hd]
      have c2 := (commonLength_spec (Memory.bytes s.input s.fr.len.toNat) Config.headerSignature.toList).2.1
      simp at c2
      rw [hf, modeOf_commonLength]
      unfold headerEdges at he
      by_cases hkc : signatureByteAt s.fr s.input k
      · have := (signatureByteAt_iff hk).mp hkc
        rw [headerTick_last hkc (by omega), if_pos (by omega)]
      · have := mt (signatureByteAt_iff hk).mpr hkc
        rw [headerTick_mismatch hkc, if_neg (by omega)]
    rw [hm] at st
    have hrec : (⟨{ s.dec with outValid := false }, enterPayload Config.build s.fr (modeOf (Memory.bytes s.input s.fr.len.toNat)),
        { s.wr with sampleBuf := s.wr.sampleBuf, wDone := false }, s.input, s.sink, s.now, s.later⟩ : State) =
        { s with fr := enterPayload Config.build s.fr (modeOf (Memory.bytes s.input s.fr.len.toNat)) } := by
      obtain ⟨⟨_, _, ov⟩, fr, ⟨_, _, _, _, wd, _⟩, _, _, _, _⟩ := s
      dsimp only at hov hwd; subst hov; subst hwd; rfl
    rw [hrec] at st
    exact stretch_one ⟨hb, hst, hd, hsk⟩ st
  | succ e ih =>
    intro s k hl hq hb hs hst hd hwd hsk hov hw hk he
    have st := step_other_quiet hl hq hb (by simp [hs])
    rw [framerTick_header hb hs, writerTick_rest hw (by simp [finishPort, hs]), writerBuffer_invalid hov,
      sinkTick_quiet (sinkCommit_idle hw)] at st
    have hkc : k.val < commonLength (Memory.bytes s.input s.fr.len.toNat) Config.headerSignature.toList := by
      unfold headerEdges at he; omega
    have hk6 : k.val + 1 < 7 := by unfold headerEdges at he; omega
    rw [headerTick_more (f := { s.fr with done := false }) ((signatureByteAt_iff (f := s.fr) hk).mpr hkc) hk6] at st
    have hrec : (⟨{ s.dec with outValid := false }, { s.fr with done := false, stage := .header ⟨k.val + 1, hk6⟩ },
        { s.wr with sampleBuf := s.wr.sampleBuf, wDone := false }, s.input, s.sink, s.now, s.later⟩ : State) =
        { s with fr := { s.fr with stage := .header ⟨k.val + 1, hk6⟩ } } := by
      obtain ⟨⟨_, _, ov⟩, ⟨_, _, _, _, _, _, _, _, _, dn, _, _⟩, ⟨_, _, _, _, wd, _⟩, _, _, _, _⟩ := s
      dsimp only at hov hwd hd; subst hov; subst hwd; subst hd; rfl
    rw [hrec] at st
    have := ih { s with fr := { s.fr with stage := .header ⟨k.val + 1, hk6⟩ } } ⟨k.val + 1, hk6⟩ hl hq hb rfl hst hd hwd hsk hov hw
      (by simpa using hkc) (by simp only; omega)
    simp only [enterPayload_stage] at this
    exact stretch_cons ⟨hb, hst, hd, hsk⟩ st this

end Sys2Proof.Machine
end

