-- ==== Sys2Proof/Tests/Slice0.lean ====
section
/-! SUPPORT. Tests of this model, with expected values from the spec's tables and worked examples, and the witnesses of the
statements' hypotheses. -/

open Sys2Proof Sys2Proof.Machine

namespace Sys2Proof.Tests

/-- The reset machine with its decoder at (index, predictor). -/
def decoderAt (i : Fin 49) (p : Int) : State :=
  { State.reset with dec := { stepIndex := i, predicted := BitVec.ofInt 12 p, outValid := true } }

/-- The instruction takes (i, p) to (i', p') with sample x, out_valid 1. -/
def decodesTo (c : Instr) (i : Fin 49) (p : Int) (i' : Fin 49) (p' x : Int) : Bool :=
  match exec c (decoderAt i p) with
  | .next t => decide (t.dec.stepIndex = i') && decide (t.dec.predicted.toInt = p') && decide ((outSample t.dec).toInt = x) &&
      t.dec.outValid
  | _ => false

/-- What a check says of the state an outcome goes on to; false at a stop. -/
def nextHas (o : Host.Outcome State Fault Refusal) (f : State → Bool) : Bool :=
  match o with
  | .next t => f t
  | _ => false

/-- The decoder of a state is at (index, predictor) with this out_valid. -/
def decIs (i : Fin 49) (p : Int) (v : Bool) (t : State) : Bool :=
  decide (t.dec.stepIndex = i) && decide (t.dec.predicted.toInt = p) && (t.dec.outValid == v)

/-- The reset machine with these pins at the coming edge and this buffer. -/
def withPins (p : Pins) (m : Memory) : State :=
  { State.reset with input := m, now := { pins := p, place := none, abort := false } }

/-- A START of a one-byte file with the byte 0x88 placed. -/
def starting : State :=
  withPins { Pins.low with start := true, bufLen := 1#32, sampleRate := 15625#32 } [(0, 0x88#8)]

/-- A file of `n` bytes of the buffer `m` in progress at a stage, the pins quiet. -/
def filing (st : Stage) (n : Nat) (m : Memory) : State :=
  { State.reset with
    fr := { Framer.initial with busy := true, len := BitVec.ofNat 32 n, stage := st }
    input := m }

/-- The buffer that is the signature alone (95_test_vectors.md H2). -/
def signature : Memory := Memory.ofBytes [0x5A#8, 0x6D#8, 0x41#8, 0x64#8, 0x70#8, 0x43#8, 0x6D#8]

/-- The same state with an abort injected at the coming edge. -/
def aborting (s : State) : State := { s with now := { s.now with abort := true } }

/-- The same state at phase low with this byte loaded. -/
def lowPhase (b : Byte) (s : State) : State := { s with fr := { s.fr with phase := .low, curByte := b } }

/-- One sample staged whole at the legal reset rate, the framer waiting. -/
def committing : State :=
  { filing .wait 1 [(0, 0x88#8)] with
    wr := { Writer.initial with sampleBuf := [0xFFE0#16], stage := .staging,
                                staging := containerImage Config.build 15625#32 [0xFFE0#16] } }

/-- A writer that has just answered. -/
def answered (ok : Bool) : State :=
  { filing .wait 1 [(0, 0x88#8)] with wr := { Writer.initial with wDone := true, wOk := ok } }

/-! ### Encoding: 30_encoding.md R66, spec/opcode_table.json -/
theorem test_word_decP0 : decodeTableWord 4 0b0000 = some .decP0 ∧ encode .decP0 = ⟨false, false, false, true, 0b0000#4⟩ := by decide
theorem test_word_decP1 : decodeTableWord 4 0b0001 = some .decP1 ∧ encode .decP1 = ⟨false, false, false, true, 0b0001#4⟩ := by decide
theorem test_word_decP2 : decodeTableWord 4 0b0010 = some .decP2 ∧ encode .decP2 = ⟨false, false, false, true, 0b0010#4⟩ := by decide
theorem test_word_decP3 : decodeTableWord 4 0b0011 = some .decP3 ∧ encode .decP3 = ⟨false, false, false, true, 0b0011#4⟩ := by decide
theorem test_word_decP4 : decodeTableWord 4 0b0100 = some .decP4 ∧ encode .decP4 = ⟨false, false, false, true, 0b0100#4⟩ := by decide
theorem test_word_decP5 : decodeTableWord 4 0b0101 = some .decP5 ∧ encode .decP5 = ⟨false, false, false, true, 0b0101#4⟩ := by decide
theorem test_word_decP6 : decodeTableWord 4 0b0110 = some .decP6 ∧ encode .decP6 = ⟨false, false, false, true, 0b0110#4⟩ := by decide
theorem test_word_decP7 : decodeTableWord 4 0b0111 = some .decP7 ∧ encode .decP7 = ⟨false, false, false, true, 0b0111#4⟩ := by decide
theorem test_word_decN0 : decodeTableWord 4 0b1000 = some .decN0 ∧ encode .decN0 = ⟨false, false, false, true, 0b1000#4⟩ := by decide
theorem test_word_decN1 : decodeTableWord 4 0b1001 = some .decN1 ∧ encode .decN1 = ⟨false, false, false, true, 0b1001#4⟩ := by decide
theorem test_word_decN2 : decodeTableWord 4 0b1010 = some .decN2 ∧ encode .decN2 = ⟨false, false, false, true, 0b1010#4⟩ := by decide
theorem test_word_decN3 : decodeTableWord 4 0b1011 = some .decN3 ∧ encode .decN3 = ⟨false, false, false, true, 0b1011#4⟩ := by decide
theorem test_word_decN4 : decodeTableWord 4 0b1100 = some .decN4 ∧ encode .decN4 = ⟨false, false, false, true, 0b1100#4⟩ := by decide
theorem test_word_decN5 : decodeTableWord 4 0b1101 = some .decN5 ∧ encode .decN5 = ⟨false, false, false, true, 0b1101#4⟩ := by decide
theorem test_word_decN6 : decodeTableWord 4 0b1110 = some .decN6 ∧ encode .decN6 = ⟨false, false, false, true, 0b1110#4⟩ := by decide
theorem test_word_decN7 : decodeTableWord 4 0b1111 = some .decN7 ∧ encode .decN7 = ⟨false, false, false, true, 0b1111#4⟩ := by decide

theorem test_port_commands :
    decodeCommand ⟨true, true, true, true, 0x7#4⟩ = .reset ∧ decodeCommand ⟨false, true, false, false, 0#4⟩ = .framerStart ∧
    decodeCommand ⟨false, false, true, true, 0x7#4⟩ = .init ∧ decodeCommand ⟨false, false, false, true, 0x7#4⟩ = .decP7 ∧
    decodeCommand ⟨false, false, false, false, 0x7#4⟩ = .idle := by decide

theorem test_word_rejected : decodeWord 8 0x10 = .error .codeTooWide ∧ decodeWord 0 0 = .error .emptyWord := ⟨rfl, rfl⟩

/-- 95_test_vectors.md S11. -/
theorem test_byte_order : nibblesOf [0xA7#8] = [0xA#4, 0x7#4] ∧ packNibbles 0xA#4 0x7#4 = 0xA7#8 := by decide

theorem test_byte_statement : expandStmt (.byte 0x88) = [.decN0, .decN0] ∧ expandStmt (.nib 0xF) = [.decN7] := by decide

/-- 95_test_vectors.md P1's expansion, first byte. -/
theorem test_file_statement : expandStmt (.file [0x0F] 15625) = [.init, .decP0, .decN7] := by decide

/-! ### WellFormed: each check refuses an ill-formed statement -/

theorem test_wf_nib : Stmt.wellFormed (.nib 15) = true ∧ Stmt.wellFormed (.nib 16) = false := by decide
theorem test_wf_byte : Stmt.wellFormed (.byte 255) = true ∧ Stmt.wellFormed (.byte 256) = false := by decide
theorem test_wf_file_byte : Stmt.wellFormed (.file [255] 15625) = true ∧ Stmt.wellFormed (.file [0, 256] 15625) = false := by decide
theorem test_wf_file_rate : Stmt.wellFormed (.file [] (2 ^ 32 - 1)) = true ∧ Stmt.wellFormed (.file [] (2 ^ 32)) = false := by decide

/-- No file is longer than buf_len can say: the length check refuses every such list. -/
theorem test_wf_file_length (bs : List Nat) (r : Nat) (h : 2 ^ 32 ≤ bs.length) : Stmt.wellFormed (.file bs r) = false := by
  simp only [Stmt.wellFormed, decide_eq_false (Nat.not_lt.mpr h), Bool.and_false, Bool.false_and]

theorem test_wf_cmd : Stmt.wellFormed (.cmd .framerStart) = true := by decide

/-! ### The nibble codes: 95_test_vectors.md 2.1 and 2.2 (from (0, 0) and from (10, 100)) -/

theorem test_decP0 : decodesTo .decP0 0 0 0 2 32 = true ∧ decodesTo .decP0 10 100 9 105 1680 = true := by decide
theorem test_decP1 : decodesTo .decP1 0 0 0 6 96 = true ∧ decodesTo .decP1 10 100 9 115 1840 = true := by decide
theorem test_decP2 : decodesTo .decP2 0 0 0 10 160 = true ∧ decodesTo .decP2 10 100 9 125 2000 = true := by decide
theorem test_decP3 : decodesTo .decP3 0 0 0 14 224 = true ∧ decodesTo .decP3 10 100 9 135 2160 = true := by decide
theorem test_decP4 : decodesTo .decP4 0 0 2 18 288 = true ∧ decodesTo .decP4 10 100 12 146 2336 = true := by decide
theorem test_decP5 : decodesTo .decP5 0 0 4 22 352 = true ∧ decodesTo .decP5 10 100 14 156 2496 = true := by decide
theorem test_decP6 : decodesTo .decP6 0 0 6 26 416 = true ∧ decodesTo .decP6 10 100 16 166 2656 = true := by decide
theorem test_decP7 : decodesTo .decP7 0 0 8 30 480 = true ∧ decodesTo .decP7 10 100 18 176 2816 = true := by decide
theorem test_decN0 : decodesTo .decN0 0 0 0 (-2) (-32) = true ∧ decodesTo .decN0 10 100 9 95 1520 = true := by decide
theorem test_decN1 : decodesTo .decN1 0 0 0 (-6) (-96) = true ∧ decodesTo .decN1 10 100 9 85 1360 = true := by decide
theorem test_decN2 : decodesTo .decN2 0 0 0 (-10) (-160) = true ∧ decodesTo .decN2 10 100 9 75 1200 = true := by decide
theorem test_decN3 : decodesTo .decN3 0 0 0 (-14) (-224) = true ∧ decodesTo .decN3 10 100 9 65 1040 = true := by decide
theorem test_decN4 : decodesTo .decN4 0 0 2 (-18) (-288) = true ∧ decodesTo .decN4 10 100 12 54 864 = true := by decide
theorem test_decN5 : decodesTo .decN5 0 0 4 (-22) (-352) = true ∧ decodesTo .decN5 10 100 14 44 704 = true := by decide
theorem test_decN6 : decodesTo .decN6 0 0 6 (-26) (-416) = true ∧ decodesTo .decN6 10 100 16 34 544 = true := by decide
theorem test_decN7 : decodesTo .decN7 0 0 8 (-30) (-480) = true ∧ decodesTo .decN7 10 100 18 24 384 = true := by decide

/-! ### Corners: 95_test_vectors.md 2.3, K1 to K15 -/

theorem test_K1_decP7 : decodesTo .decP7 48 2047 48 2047 32752 = true := by decide
theorem test_K2_decN7 : decodesTo .decN7 48 (-2048) 48 (-2048) (-32768) = true := by decide
theorem test_K7_decP3 : decodesTo .decP3 1 0 0 14 224 = true := by decide
theorem test_K8_decP4 : decodesTo .decP4 47 0 48 1587 25392 = true := by decide
theorem test_K9_decP6 : decodesTo .decP6 45 2000 48 2047 32752 = true := by decide
theorem test_K11_decP0 : decodesTo .decP0 0 2047 0 2047 32752 = true := by decide
theorem test_K12_decN0 : decodesTo .decN0 48 (-2047) 47 (-2048) (-32768) = true := by decide
theorem test_K13_decN5 : decodesTo .decN5 20 (-5) 24 (-151) (-2416) = true := by decide

/-- 41_adpcm_decode.md R84: the sum of the floors, 34, where one floor of the whole would give 35 (K15). -/
theorem test_magnitude_floors : magnitude 19 0x7#4 = 34 ∧ magnitude 19 0xF#4 = 34 := by decide

/-- 95_test_vectors.md 2.4, three rows. -/
theorem test_magnitude_table :
    (List.range 8).map (fun m => magnitude (Config.build.stepSize.get 13) (BitVec.ofNat 4 m)) = [6, 19, 33, 46, 61, 74, 88, 101] ∧
    (List.range 8).map (fun m => magnitude (Config.build.stepSize.get 31) (BitVec.ofNat 4 m)) =
      [38, 114, 191, 267, 345, 421, 498, 574] ∧
    (List.range 8).map (fun m => magnitude (Config.build.stepSize.get 48) (BitVec.ofNat 4 m)) =
      [194, 582, 970, 1358, 1746, 2134, 2522, 2910] := by decide

/-! ### Parameters: 00_scope.md R7 and R8, 10_state.md R26 to R29 -/

theorem test_parameters_valid : Config.build.valid = true := by decide

/-- 43_container_writer.md R149: one byte more would overflow the 32-bit RIFF size. -/
theorem test_payload_bound : { Config.build with maxPayloadBytes := 1073741815 }.valid = false := by decide

/-- The codes n and n + 8 have equal default deltas. -/
theorem test_delta_symmetry : ∀ k : Fin 8, Config.defaultIndexDelta.get ⟨k.val, by omega⟩ = Config.defaultIndexDelta.get ⟨k.val + 8, by omega⟩ := by
  decide

/-- A build with other initial values (00_scope.md R8): its RESET and INIT load them, and its codes use its tables. -/
def otherBuild : Params :=
  { Config.build with initStepIndex := 7, initPredicted := BitVec.ofInt 12 (-5), indexDelta := Vector.replicate 16 3 }

theorem test_other_build :
    decIs 7 (-5) false (State.resetOf otherBuild) = true ∧
    nextHas (stepOn otherBuild { decoderAt 32 336 with now := driveOf { Pins.low with init := true } }) (decIs 7 (-5) false) = true ∧
    nextHas (stepOn otherBuild { decoderAt 0 0 with now := driveOf { Pins.low with inValid := true } }) (decIs 3 2 true) = true := by
  decide

/-! ### INIT, RESET, IDLE, START: 95_test_vectors.md 2.5, C1 to C5, and H9 -/

theorem test_init : nextHas (exec .init (decoderAt 32 336)) (decIs 0 0 false) = true := by decide
theorem test_reset : nextHas (exec .reset (decoderAt 32 336)) (decIs 0 0 false) = true := by decide
theorem test_idle : nextHas (exec .idle (decoderAt 32 336)) (decIs 32 336 false) = true := by decide

/-- C4: the nibble presented with INIT is dropped. -/
theorem test_init_drops_nibble :
    nextHas (step { decoderAt 32 336 with now := driveOf { Pins.low with init := true, inValid := true, inNibble := 0x7#4 } })
      (decIs 0 0 false) = true := by decide

/-- C5: RESET wins over INIT and the nibble. -/
theorem test_reset_wins :
    nextHas (step { decoderAt 32 336 with
        now := driveOf { Pins.low with rst := true, init := true, inValid := true, inNibble := 0x7#4 } })
      (decIs 0 0 false) = true := by decide

theorem test_start : nextHas (step starting) (fun t => t.fr.busy && decide (t.fr.stage = .header 0) && decide (t.fr.len = 1#32) &&
    decide (t.wr.sampleRate = 15625#32) && decIs 0 0 false t) = true := by decide

/-- H9: a read failure at START ends the file at once. -/
theorem test_start_read_failure :
    nextHas (step (withPins { Pins.low with start := true, rdErr := true, bufLen := 1#32 } [(0, 0x88#8)]))
      (fun t => decide (t.fr.status = .readFailure) && t.fr.done && !t.fr.busy) = true := by decide

/-! ### One edge of the framer and the writer -/

/-- R61, R127: the byte 0x0F feeds 0x0 first and then 0xF; (0, 0) to (0, 2) and, from there, minus 30. -/
theorem test_feed_high_first :
    nextHas (step (filing .feed 1 [(0, 0x0F#8)])) (fun t => decIs 0 2 true t && decide (t.fr.phase = .low) && decide (t.fr.curByte = 0x0F#8)) = true := by
  decide

theorem test_feed_low_second :
    nextHas (step (lowPhase 0x0F#8 (filing .feed 1 [(0, 0x0F#8)]))) (fun t => decIs 8 (-30) true t && decide (t.fr.stage = .drain) && decide (t.fr.cursor = 1)) = true := by
  decide

/-- H1 and H2: an empty payload is skipped, raw and headered. -/
theorem test_empty_payloads :
    nextHas (step (filing (.header 0) 0 [])) (fun t => decide (t.fr.status = .skippedEmpty) && decide (t.fr.mode = .raw) && t.fr.done) = true ∧
    nextHas (step (filing (.header 6) 7 signature)) (fun t => decide (t.fr.status = .skippedEmpty) && decide (t.fr.mode = .headered) && t.fr.done) = true := by
  decide

/-- H16: one byte more than the bound. -/
theorem test_oversize :
    nextHas (step (filing (.header 0) 1073741815 [])) (fun t => decide (t.fr.status = .writeFailure) && t.fr.done) = true := by decide

/-- H5: 34 signature-prefixed bytes go on to the payload at 32. -/
theorem test_headered_payload :
    nextHas (step (filing (.header 6) 34 signature)) (fun t => decide (t.fr.stage = .feed) && decide (t.fr.cursor = 32)) = true := by decide

set_option maxRecDepth 20000 in
theorem test_commit : nextHas (step committing) (fun t => t.wr.wDone && t.wr.wOk && decide (t.sink.length = 1)) = true := by decide

set_option maxRecDepth 20000 in
/-- H11: a sink error commits nothing. -/
theorem test_commit_refused_by_sink :
    nextHas (step { committing with now := driveOf { Pins.low with sinkErr := true } })
      (fun t => t.wr.wDone && !t.wr.wOk && decide (t.sink = [])) = true := by decide

theorem test_presented_word : nextHas (step (State.reset.withFetchWord 8 0x5)) (decIs 4 22 true) = true := by decide

/-! ### Container: 95_test_vectors.md 2.7 and P1 -/

/-- W1 to W6. -/
theorem test_sample_bytes :
    [0, -32, 32752, -32768, 688, -1488].flatMap (fun v => leBytes 2 (BitVec.ofInt 16 v).toNat) =
      [0x00#8, 0x00#8, 0xE0#8, 0xFF#8, 0xF0#8, 0x7F#8, 0x00#8, 0x80#8, 0xB0#8, 0x02#8, 0x30#8, 0xFA#8] := by decide

/-- P1's header: 8 samples at 15625. -/
theorem test_header_bytes :
    riffHeader 15625#32 8 =
      [0x52#8, 0x49#8, 0x46#8, 0x46#8, 0x34#8, 0x00#8, 0x00#8, 0x00#8, 0x57#8, 0x41#8, 0x56#8, 0x45#8, 0x66#8, 0x6D#8, 0x74#8] ++
      [0x20#8, 0x10#8, 0x00#8, 0x00#8, 0x00#8, 0x01#8, 0x00#8, 0x01#8, 0x00#8, 0x09#8, 0x3D#8, 0x00#8, 0x00#8, 0x12#8, 0x7A#8] ++
      [0x00#8, 0x00#8, 0x02#8, 0x00#8, 0x10#8, 0x00#8, 0x64#8, 0x61#8, 0x74#8, 0x61#8, 0x10#8, 0x00#8, 0x00#8, 0x00#8] := by decide

/-! ### Whole files at the transaction level: 95_test_vectors.md P1, P5 and section 2.6 -/

theorem test_P1_file :
    (runFile Config.build [0x88#8, 0x00#8, 0xFF#8, 0x77#8] false 15625#32 false).samples.map BitVec.toInt =
      [-32, -64, -32, 0, -480, -1488, 688, 5376] := by decide

theorem test_P5_file :
    (runFile Config.build [0x77#8, 0x77#8, 0x77#8, 0x88#8] false 15625#32 false).samples.map BitVec.toInt =
      [480, 1488, 3664, 8352, 18448, 32752, 29648, 26832] := by decide

/-- H10, H12, H13, H14, H15. -/
theorem test_outcomes :
    (runFile Config.build [0x88#8] false 0#32 false).outcome = .writeFailure ∧
    (runFile Config.build [] false 0#32 false).outcome = .skippedEmpty ∧
    (runFile Config.build [] true 0#32 false).outcome = .readFailure ∧
    (runFile Config.build [0x88#8] false 0x80000000#32 false).outcome = .writeFailure ∧
    (runFile Config.build [0x88#8] false 0x7FFFFFFF#32 false).outcome = .ok := by decide

/-! ### Witnesses: a state and operands that meet each statement's hypotheses -/

theorem witness_TableWords : (4 = 4 ∨ 4 = 8) ∧ (8 = 4 ∨ 8 = 8) ∧ 16 ≤ 16 ∧ decodeTableWord 8 16 = none ∧ decodeTableWord 8 15 = some .decN7 := by decide
theorem witness_EncodedCommands : Instr.wellFormed .framerStart = true ∧ encodeCode .decN7 = some 0xF#4 := by decide
theorem witness_EdgeCommand_direct : State.reset.fr.busy = false ∧ State.reset.now.pins.start = false := by decide
theorem witness_EdgeCommand_start : starting.fr.busy = false ∧ starting.now.pins.start = true := by decide
theorem witness_EdgeCommand_quiet : (filing .drain 1 []).fr.busy = true ∧ (filing .drain 1 []).fr.stage ≠ .feed := by decide
theorem witness_EdgeCommand_feed : (filing .feed 1 [(0, 0x88#8)]).fr.busy = true ∧ (filing .feed 1 [(0, 0x88#8)]).fr.stage = .feed ∧
    feedNibble (filing .feed 1 [(0, 0x88#8)]) = .ok 0x8#4 := ⟨rfl, rfl, rfl⟩
theorem witness_Bytes : 0 < [0xA7#8].length := by decide
theorem witness_CodeExamples : (decoderAt 0 0).dec.stepIndex = 0 ∧ (decoderAt 0 0).dec.predicted = BitVec.ofInt 12 0 ∧
    (decoderAt 10 100).dec.stepIndex = 10 ∧ (decoderAt 10 100).dec.predicted = BitVec.ofInt 12 100 := by decide
theorem witness_Clamped_inside : (46 : Int) = ((47 : Fin 49).val : Int) + Config.build.indexDelta.get 0 ∧ (0 : Int) ≤ 46 ∧ (46 : Int) ≤ 48 := by decide
theorem witness_Clamped_predictor : (2047 : Int) = (if signBit 0x0#4 then (decoderAt 0 2045).dec.predicted.toInt - magnitude (Config.build.stepSize.get 0) 0x0#4
    else (decoderAt 0 2045).dec.predicted.toInt + magnitude (Config.build.stepSize.get 0) 0x0#4) ∧
    (-2048 : Int) = (if signBit 0x8#4 then (decoderAt 0 (-2046)).dec.predicted.toInt - magnitude (Config.build.stepSize.get 0) 0x8#4
    else (decoderAt 0 (-2046)).dec.predicted.toInt + magnitude (Config.build.stepSize.get 0) 0x8#4) := by decide
theorem witness_Clamped_edges : (48 : Int) = ((46 : Fin 49).val : Int) + Config.build.indexDelta.get 4 ∧
    (0 : Int) = ((1 : Fin 49).val : Int) + Config.build.indexDelta.get 0 := by decide
theorem witness_OppositeSigns : (0x7#4).toNat < 8 ∧ (0x0#4).toNat < 8 ∧
    Config.build.indexDelta.get (0x7#4).toFin = Config.build.indexDelta.get (0x7#4 + 8#4).toFin := by decide
theorem witness_IndexAndPredictor : (decoderAt 3 5).dec.stepIndex = (decoderAt 3 (-7)).dec.stepIndex ∧
    Config.build.indexDelta = Config.build.indexDelta ∧ Config.build.stepSize = { Config.build with initStepIndex := 1 }.stepSize ∧
    (decoderAt 3 5).dec.predicted = { (decoderAt 3 5).dec with outValid := false }.predicted := by decide
theorem witness_Samples : (-2048 : Int) ≤ -2048 ∧ (2047 : Int) ≤ 2047 ∧ (sampleOf (BitVec.ofInt 12 (-2048))).toInt = 16 * (-2048) ∧
    (sampleOf (BitVec.ofInt 12 2047)).toInt = 16 * 2047 := by decide
theorem witness_Rail_top : 8 ≤ Config.build.stepSize.get (decoderAt 48 2047).dec.stepIndex ∧ signBit 0x8#4 = true ∧
    (decoderAt 48 2047).dec.predicted.toInt = 2047 ∧ (decoderAt 48 2047).dec.stepIndex = 48 := by decide
theorem witness_Rail_bottom : 8 ≤ Config.build.stepSize.get (decoderAt 0 (-2048)).dec.stepIndex ∧ signBit 0x0#4 = false ∧
    (decoderAt 0 (-2048)).dec.predicted.toInt = -2048 := by decide
theorem witness_OneSample : [0x0#4] ≠ [] := by decide
theorem witness_Init : starting.fr.busy = false := by decide
theorem witness_Reset : (withPins { Pins.low with rst := true } []).now.pins.rst = true := by decide

/-- Two IDLE commands in a row from (3, 5), then the same state again. -/
def idling : Nat → State
  | 0 => decoderAt 3 5
  | _ + 1 => { decoderAt 3 5 with dec := { (decoderAt 3 5).dec with outValid := false } }

theorem witness_Idle : ∀ j, j < 2 → exec .idle (idling j) = .next (idling (j + 1)) := fun j _ => by
  cases j <;> rfl
theorem witness_DecoderCommands : Instr.decP3 ≠ .reset ∧ Instr.decP3 ≠ .framerStart ∧ Instr.idle ≠ .reset ∧ Instr.idle ≠ .framerStart ∧
    (∃ t, exec .decP3 State.reset = .next t) ∧ (∃ t, exec .idle State.reset = .next t) :=
  ⟨by decide, by decide, by decide, by decide, ⟨_, rfl⟩, ⟨_, rfl⟩⟩
theorem witness_ResetAndStart : (∃ t, exec .reset starting = .next t) ∧ (∃ t, exec .framerStart starting = .next t) := ⟨⟨_, rfl⟩, ⟨_, rfl⟩⟩
theorem witness_StartBegins : starting.fr.busy = false ∧ starting.now.pins.rst = false ∧ starting.now.pins.start = true ∧
    starting.now.pins.rdErr = false := by decide
theorem witness_ReadFailure : (withPins { Pins.low with start := true, rdErr := true } []).fr.busy = false ∧
    (withPins { Pins.low with start := true, rdErr := true } []).now.pins.rdErr = true := by decide
theorem witness_StartIgnored : (filing .drain 1 []).fr.busy = true ∧ ∃ t, step (filing .drain 1 []) = .next t := ⟨rfl, ⟨_, rfl⟩⟩
theorem witness_StartAfterAny : starting.fr.busy = false ∧ { starting with dec := (decoderAt 32 336).dec }.fr.busy = false ∧
    starting.now = { starting with dec := (decoderAt 32 336).dec }.now ∧ starting.input = { starting with dec := (decoderAt 32 336).dec }.input := by decide
theorem witness_StepPerforms : placeBuffer starting = .ok starting ∧ fetch starting = .ok .framerStart ∧
    ∃ t, exec .framerStart starting = .next t := ⟨rfl, rfl, ⟨_, rfl⟩⟩
theorem witness_StepPerforms_code : placeBuffer (filing .feed 1 [(0, 0x88#8)]) = .ok (filing .feed 1 [(0, 0x88#8)]) ∧
    fetch (filing .feed 1 [(0, 0x88#8)]) = .ok .decN0 ∧ ∃ t, exec .decN0 (filing .feed 1 [(0, 0x88#8)]) = .next t := ⟨rfl, rfl, ⟨_, rfl⟩⟩
theorem witness_Presented : (4 : Nat) ≠ 0 ∧ 15 < 16 ∧ decodeTableWord 4 15 = some .decN7 := by decide

/-- The quiet premises of one edge of a file: busy, no RESET, nothing placed. -/
def quietEdge (s : State) : Prop := s.fr.busy = true ∧ s.now.pins.rst = false ∧ s.now.place = none

theorem witness_FeedLoop_high : quietEdge (filing .feed 1 [(0, 0x88#8)]) ∧ (filing .feed 1 [(0, 0x88#8)]).fr.stage = .feed ∧
    (filing .feed 1 [(0, 0x88#8)]).now.abort = false ∧ (filing .feed 1 [(0, 0x88#8)]).fr.phase = .high ∧
    (filing .feed 1 [(0, 0x88#8)]).fr.cursor < (filing .feed 1 [(0, 0x88#8)]).fr.len.toNat := ⟨⟨rfl, rfl, rfl⟩, by decide⟩
theorem witness_FeedLoop_low : quietEdge (lowPhase 0x88#8 (filing .feed 1 [(0, 0x88#8)])) ∧
    (lowPhase 0x88#8 (filing .feed 1 [(0, 0x88#8)])).fr.stage = .feed ∧ (lowPhase 0x88#8 (filing .feed 1 [(0, 0x88#8)])).now.abort = false ∧
    (lowPhase 0x88#8 (filing .feed 1 [(0, 0x88#8)])).fr.phase = .low := ⟨⟨rfl, rfl, rfl⟩, by decide⟩
theorem witness_HeaderTest_goes_on : quietEdge (filing (.header 5) 7 signature) ∧ (filing (.header 5) 7 signature).fr.stage = .header 5 ∧
    5 < (filing (.header 5) 7 signature).fr.len.toNat ∧ Memory.read (filing (.header 5) 7 signature).input 5 = Config.headerSignature.get 5 :=
  ⟨⟨rfl, rfl, rfl⟩, by decide⟩
theorem witness_HeaderTest_last : quietEdge (filing (.header 6) 7 signature) ∧ (filing (.header 6) 7 signature).fr.stage = .header 6 ∧
    6 < (filing (.header 6) 7 signature).fr.len.toNat ∧ Memory.read (filing (.header 6) 7 signature).input 6 = Config.headerSignature.get 6 :=
  ⟨⟨rfl, rfl, rfl⟩, by decide⟩
theorem witness_HeaderTest_mismatch : quietEdge (filing (.header 6) 6 signature) ∧ (filing (.header 6) 6 signature).fr.stage = .header 6 ∧
    ¬ (6 < (filing (.header 6) 6 signature).fr.len.toNat ∧ Memory.read (filing (.header 6) 6 signature).input 6 = Config.headerSignature.get 6) :=
  ⟨⟨rfl, rfl, rfl⟩, by decide⟩

/-- The hypotheses of the empty, oversize and ordinary cases, at length `n`. -/
def settles (s : State) (k : Fin 7) (off : Nat) : Prop :=
  quietEdge s ∧ s.fr.stage = .header k ∧ s.wr.stage = .idle ∧
  ((off = 32 ∧ k.val = 6 ∧ k.val < s.fr.len.toNat ∧ Memory.read s.input k.val = Config.headerSignature.get k) ∨
   (off = 0 ∧ ¬ (k.val < s.fr.len.toNat ∧ Memory.read s.input k.val = Config.headerSignature.get k)))

theorem witness_Empty_raw : settles (filing (.header 0) 0 []) 0 0 ∧ ((filing (.header 0) 0 []).fr.len.toNat : Int) - 0 ≤ 0 :=
  ⟨⟨⟨rfl, rfl, rfl⟩, rfl, rfl, .inr (by decide)⟩, by decide⟩
theorem witness_Empty_headered : settles (filing (.header 6) 32 signature) 6 32 ∧ ((filing (.header 6) 32 signature).fr.len.toNat : Int) - 32 ≤ 0 :=
  ⟨⟨⟨rfl, rfl, rfl⟩, rfl, rfl, .inl (by decide)⟩, by decide⟩
theorem witness_Oversize : settles (filing (.header 0) 1073741815 []) 0 0 ∧
    (Config.build.maxPayloadBytes : Int) < ((filing (.header 0) 1073741815 []).fr.len.toNat : Int) - 0 :=
  ⟨⟨⟨rfl, rfl, rfl⟩, rfl, rfl, .inr (by decide)⟩, by decide⟩
theorem witness_Payload_raw : settles (filing (.header 0) 1 []) 0 0 ∧ 0 < ((filing (.header 0) 1 []).fr.len.toNat : Int) - 0 ∧
    ((filing (.header 0) 1 []).fr.len.toNat : Int) - 0 ≤ Config.build.maxPayloadBytes :=
  ⟨⟨⟨rfl, rfl, rfl⟩, rfl, rfl, .inr (by decide)⟩, by decide⟩
theorem witness_Payload_headered : settles (filing (.header 6) 33 signature) 6 32 ∧ 0 < ((filing (.header 6) 33 signature).fr.len.toNat : Int) - 32 ∧
    ((filing (.header 6) 33 signature).fr.len.toNat : Int) - 32 ≤ Config.build.maxPayloadBytes :=
  ⟨⟨⟨rfl, rfl, rfl⟩, rfl, rfl, .inl (by decide)⟩, by decide⟩
theorem witness_Payload_raw_bound : settles (filing (.header 0) 1073741814 []) 0 0 ∧
    ((filing (.header 0) 1073741814 []).fr.len.toNat : Int) - 0 = Config.build.maxPayloadBytes :=
  ⟨⟨⟨rfl, rfl, rfl⟩, rfl, rfl, .inr (by decide)⟩, by decide⟩
theorem witness_Payload_headered_bound : settles (filing (.header 6) 1073741846 signature) 6 32 ∧
    ((filing (.header 6) 1073741846 signature).fr.len.toNat : Int) - 32 = Config.build.maxPayloadBytes :=
  ⟨⟨⟨rfl, rfl, rfl⟩, rfl, rfl, .inl (by decide)⟩, by decide⟩
theorem witness_Oversize_headered : settles (filing (.header 6) 1073741847 signature) 6 32 ∧
    ((filing (.header 6) 1073741847 signature).fr.len.toNat : Int) - 32 = Config.build.maxPayloadBytes + 1 :=
  ⟨⟨⟨rfl, rfl, rfl⟩, rfl, rfl, .inl (by decide)⟩, by decide⟩
theorem witness_FileEnds : quietEdge (answered true) ∧ (answered true).fr.stage = .wait ∧ (answered true).wr.wDone = true ∧
    quietEdge committing ∧ committing.fr.stage = .wait ∧ committing.wr.wDone = false := ⟨⟨rfl, rfl, rfl⟩, rfl, rfl, ⟨rfl, rfl, rfl⟩, rfl, rfl⟩
theorem witness_Abort : quietEdge (aborting (filing .feed 1 [(0, 0x88#8)])) ∧ (aborting (filing .feed 1 [(0, 0x88#8)])).fr.stage = .feed ∧
    (aborting (filing .feed 1 [(0, 0x88#8)])).now.abort = true ∧
    (aborting (filing .feed 1 [(0, 0x88#8)])).fr.cursor < (aborting (filing .feed 1 [(0, 0x88#8)])).fr.len.toNat := ⟨⟨rfl, rfl, rfl⟩, by decide⟩
theorem witness_ReadsBeyond : 0 < (1#32).toNat ∧ (1#32).toNat ≤ 1 ∧ quietEdge (filing .feed 0 []) ∧ (filing .feed 0 []).fr.stage = .feed ∧
    (filing .feed 0 []).fr.phase = .high ∧ (filing .feed 0 []).fr.len.toNat ≤ (filing .feed 0 []).fr.cursor :=
  ⟨by decide, by decide, ⟨rfl, rfl, rfl⟩, by decide⟩

/-- A caller that changes the buffer during a file. -/
def changing : State := { filing .drain 1 [] with now := { pins := Pins.low, place := some [], abort := false } }

theorem witness_BufferChange : changing.fr.busy = true ∧ changing.now.pins.rst = false ∧ changing.now.place = some [] ∧
    step changing = .refused .bufferChangedDuringFile := ⟨rfl, rfl, rfl, rfl⟩

/-- The framer's invariant in the feed loop of a raw one-byte file. -/
theorem witness_framerInv_feed : framerInv Config.build (filing .feed 1 [(0, 0x88#8)]) := by
  refine ⟨rfl, by decide, fun _ => ⟨rfl, rfl, rfl⟩, fun _ k h => (by cases h), fun _ _ => ⟨by decide, by decide, by decide, ?_, fun h => (by cases h)⟩⟩
  exact ⟨fun h => (by cases h), fun h => absurd h.1 (by decide)⟩

/-- It holds at the signature test's last byte too. -/
theorem witness_framerInv_header : framerInv Config.build (filing (.header 6) 34 signature) := by
  refine ⟨rfl, by decide, fun _ => ⟨rfl, rfl, rfl⟩, fun _ k h => ?_, fun _ h => (by cases h)⟩
  obtain rfl : (6 : Fin 7) = k := by simpa [filing] using h
  exact ⟨rfl, rfl, rfl, by decide, by decide⟩

theorem witness_NoFault : framerInv Config.build (filing .feed 1 [(0, 0x88#8)]) ∧ callerKeepsBuffer (filing .feed 1 [(0, 0x88#8)]) ∧
    safeStep (filing .feed 1 [(0, 0x88#8)]) := ⟨witness_framerInv_feed, .inl rfl, _, rfl⟩
theorem witness_OutValid : placeBuffer State.reset = .ok State.reset ∧ fetch State.reset = .ok .idle ∧ encodeCode .idle = none ∧
    (∃ t, step State.reset = .next t) := ⟨rfl, rfl, rfl, _, rfl⟩
theorem witness_OutValid_code : placeBuffer (filing .feed 1 [(0, 0x88#8)]) = .ok (filing .feed 1 [(0, 0x88#8)]) ∧
    fetch (filing .feed 1 [(0, 0x88#8)]) = .ok .decN0 ∧ encodeCode .decN0 ≠ none ∧ (∃ t, step (filing .feed 1 [(0, 0x88#8)]) = .next t) :=
  ⟨rfl, rfl, by decide, _, rfl⟩
theorem witness_OnlyCommands : (∃ t, step State.reset = .next t) ∧ State.reset.now.pins.rst = false ∧ State.reset.fr.busy = false ∧
    State.reset.now.pins.start = false ∧ State.reset.now.pins.init = false ∧ State.reset.now.pins.inValid = false ∧
    (∃ t, step committing = .next t) ∧ committing.fr.stage ≠ .feed := ⟨⟨_, rfl⟩, rfl, rfl, rfl, rfl, rfl, ⟨_, rfl⟩, by decide⟩
theorem witness_Outcomes : ∃ t, step (answered true) = .next t ∧ t.fr.done = true ∧ (answered true).fr.busy = true ∧ t.fr.busy = false ∧
    (answered true).now.pins.rst = false := ⟨_, rfl, rfl, rfl, rfl, rfl⟩
theorem witness_PortsAtStart : quietEdge committing ∧ Pins.low.rst = false ∧ Pins.low.sinkErr = committing.now.pins.sinkErr ∧
    ∃ t, step committing = .next t := ⟨⟨rfl, rfl, rfl⟩, rfl, rfl, ⟨_, rfl⟩⟩

/-- A writer that has answered, for a file whose abort was injected. -/
def abortedFile : State := { answered true with fr := { (answered true).fr with aborted := true } }

theorem witness_PartialDecode : ∃ t, step abortedFile = .next t ∧ t.fr.status = .partialDecode ∧ abortedFile.fr.status ≠ .partialDecode :=
  ⟨_, rfl, rfl, by decide⟩
theorem witness_AbortMark : ∃ t, step (aborting (filing .feed 1 [(0, 0x88#8)])) = .next t ∧ t.fr.aborted = true ∧
    (aborting (filing .feed 1 [(0, 0x88#8)])).fr.aborted = false := ⟨_, rfl, rfl, rfl⟩
theorem witness_Appends : (∃ t, step (decoderAt 0 2) = .next t) ∧ (decoderAt 0 2).now.pins.rst = false ∧ (decoderAt 0 2).now.pins.start = false ∧
    (decoderAt 0 2).dec.outValid = true ∧ (decoderAt 0 2).wr.sampleCount < sampleCapacity Config.build ∧ State.reset.dec.outValid = false :=
  ⟨⟨_, rfl⟩, rfl, rfl, rfl, by decide, rfl⟩
theorem witness_SampleRate : (∃ t, step starting = .next t) ∧ starting.now.pins.rst = false ∧ starting.fr.busy = false ∧ starting.now.pins.start = true ∧
    (∃ t, step (withPins { Pins.low with rst := true } []) = .next t) ∧ (∃ t, step State.reset = .next t) ∧ State.reset.now.pins.start = false :=
  ⟨⟨_, rfl⟩, rfl, rfl, rfl, ⟨_, rfl⟩, ⟨_, rfl⟩, rfl⟩

/-- A caller that has still to place a buffer. -/
def placing : State := { State.reset with now := startDrive [0x88#8] 15625#32, later := [startDrive [0x00#8, 0x01#8] 0#32] }

theorem witness_bufferInv : bufferInv placing ∧ ∃ t, step placing = .next t := by
  refine ⟨⟨rfl, fun m h => ?_, fun d hd m h => ?_⟩, _, rfl⟩
  · obtain rfl : [(0, 0x88#8)] = m := by simpa [placing, startDrive, Memory.ofBytes, Memory.ofBytesFrom] using h
    rfl
  · obtain rfl : d = startDrive [0x00#8, 0x01#8] 0#32 := by simpa [placing] using hd
    obtain rfl : [(1, 0x01#8)] = m := by simpa [startDrive, Memory.ofBytes, Memory.ofBytesFrom] using h
    rfl
theorem witness_framerInv_steps :
    (framerInv Config.build (filing .feed 1 [(0, 0x88#8)]) ∧ ∃ t, step (filing .feed 1 [(0, 0x88#8)]) = .next t) ∧
    (framerInv Config.build (filing (.header 6) 34 signature) ∧ ∃ t, step (filing (.header 6) 34 signature) = .next t) :=
  ⟨⟨witness_framerInv_feed, _, rfl⟩, witness_framerInv_header, _, rfl⟩
theorem witness_countInv : countInv Config.build (filing .feed 1 [(0, 0x88#8)]) ∧ ∃ t, step (filing .feed 1 [(0, 0x88#8)]) = .next t := by
  refine ⟨fun _ => ⟨fun k h => (by cases h), fun _ => ⟨by decide, by decide, by decide, rfl, rfl⟩, fun h => (by cases h), fun h => ?_⟩, _, rfl⟩
  rcases h with h | h <;> cases h
set_option maxRecDepth 20000 in
theorem witness_writerInv : writerInv Config.build committing ∧ ∃ t, step committing = .next t := by
  refine ⟨⟨by decide, fun h => (by cases h), fun h => (by cases h), fun _ _ => rfl, fun _ => ⟨rfl, rfl, by decide, ?_⟩⟩, _, rfl⟩
  exact (List.take_of_length_le (Nat.le_refl _)).symm
theorem witness_samplesInv : samplesInv committing ∧ ∃ t, step committing = .next t := by
  refine ⟨fun x hx => ?_, _, rfl⟩
  obtain rfl : x = 0xFFE0#16 := by simpa [committing] using hx
  decide

/-- A file whose writer is asked to finish, at a rate. -/
def finishing (rate : Word32) : State :=
  { filing .finish 1 [(0, 0x88#8)] with wr := { Writer.initial with sampleRate := rate } }

theorem witness_IllegalRate : quietEdge (finishing 0#32) ∧ (finishing 0#32).fr.stage = .finish ∧ (finishing 0#32).wr.stage = .idle ∧
    (finishing 0#32).wr.sampleRate.toNat = 0 ∧ 2 ^ 31 ≤ (finishing 0x80000000#32).wr.sampleRate.toNat ∧
    1 ≤ (finishing 1#32).wr.sampleRate.toNat ∧ (finishing 0x7FFFFFFF#32).wr.sampleRate.toNat ≤ 2 ^ 31 - 1 :=
  ⟨⟨rfl, rfl, rfl⟩, rfl, rfl, by decide⟩
theorem witness_Commit : committing.wr.stage = .staging ∧ imageLength committing.wr.sampleCount ≤ committing.wr.staging.length ∧ quietEdge committing ∧
    committing.fr.stage = .wait ∧ committing.dec.outValid = false := ⟨rfl, (containerImage_length Config.build 15625#32 [0xFFE0#16]).ge, ⟨rfl, rfl, rfl⟩, rfl, rfl⟩

/-- A writer with `k` bytes of the one-sample image staged, the framer waiting. -/
def staged (k : Nat) : State :=
  { filing .wait 1 [(0, 0x88#8)] with
    wr := { Writer.initial with sampleBuf := [0xFFE0#16], stage := .staging,
                                staging := (containerImage Config.build 15625#32 [0xFFE0#16]).take k } }

theorem staged_length (k : Nat) (h : k ≤ 46) : (staged k).wr.staging.length = k := by
  have := containerImage_length Config.build 15625#32 [0xFFE0#16]
  simp only [staged, List.length_take, this, imageLength, List.length_singleton]; omega

/-- The first and the last edge that stages a byte of a one-sample image after the FINISH edge. -/
theorem witness_Staging : ∀ k, k = 1 ∨ k = 45 → (staged k).wr.stage = .staging ∧
    (staged k).wr.staging.length < imageLength (staged k).wr.sampleCount ∧ quietEdge (staged k) ∧ (staged k).fr.stage = .wait ∧
    (staged k).wr.wDone = false ∧ (staged k).dec.outValid = false := by
  intro k hk
  refine ⟨rfl, ?_, ⟨rfl, rfl, rfl⟩, rfl, rfl, rfl⟩
  rw [staged_length k (by omega)]
  show k < 46
  omega

/-- The drain edge of a file whose last sample is on `out_sample`. -/
def draining : State := { filing .drain 1 [(0, 0x88#8)] with dec := (decoderAt 0 (-4)).dec }

theorem witness_Drain : quietEdge draining ∧ draining.fr.stage = .drain ∧ draining.wr.stage = .idle ∧ draining.dec.outValid = true ∧
    draining.wr.sampleCount < sampleCapacity Config.build := ⟨⟨rfl, rfl, rfl⟩, rfl, rfl, rfl, by decide⟩
theorem witness_NoCommit : (∃ t, step State.reset = .next t) ∧ sinkCommit State.reset.wr = false := ⟨⟨_, rfl⟩, rfl⟩
theorem witness_LittleEndian : 0 < [0xFFE0#16].length := by decide
theorem witness_LengthFields : rateLegal 1#32 = true ∧ rateLegal 0x7FFFFFFF#32 = true ∧ [0xFFE0#16].length ≤ 2147483629 := by decide
theorem witness_StagedByte : 0 < imageLength 0 ∧ 43 < imageLength 0 ∧ 45 < imageLength 1 := by decide

/-- A near-miss (S9, H7) and two headers that differ at byte 7 (S4). -/
theorem witness_HeaderBytes : ¬ Config.headerSignature.toList <+: [0x5A#8, 0x6D#8, 0x41#8, 0x64#8, 0x70#8, 0x43#8] ∧
    (0x01#8 :: List.replicate 24 0#8).length = (List.replicate 25 0#8).length ∧
    (0x01#8 :: List.replicate 24 0#8).drop 25 = (List.replicate 25 0#8).drop 25 := by decide
theorem witness_Priority : (runFile Config.build [0x88#8] false 15625#32 false).outcome = .ok := by decide
theorem witness_FileRun : starting.fr.busy = false ∧ starting.now.pins.rst = false ∧ starting.now.pins.start = true ∧ starting.later = [] := by decide

/-- The one-byte file ends after 55 edges: 1 for START, 1 header byte, 2 nibbles, 1, 49 to stage and commit, 1. -/
theorem witness_FileEdges : fileEdges Config.build [0x88#8] false 15625#32 = 55 ∧ 0 < 53 ∧ 53 + 1 < 55 ∧ 54 < 55 := by decide
theorem witness_Instances : (0 : Nat) ≠ 1 ∧ [State.reset, State.reset][0]? = some State.reset ∧
    [State.reset, State.reset][2]? = none ∧ stepInstance Config.build 2 [State.reset, State.reset] = .next [State.reset, State.reset] ∧
    (∃ u, stepInstance Config.build 0 [State.reset, State.reset] = .next u ∧ ∃ v, stepInstance Config.build 1 u = .next v) :=
  ⟨by decide, rfl, rfl, rfl, _, rfl, _, rfl⟩
theorem witness_Instances_stop : [changing][0]? = some changing ∧ stepOn Config.build changing = .refused .bufferChangedDuringFile ∧
    [filing .feed 0 []][0]? = some (filing .feed 0 []) ∧ stepOn Config.build (filing .feed 0 []) = .fault .inputReadOutOfRange :=
  ⟨rfl, rfl, rfl, rfl⟩

end Sys2Proof.Tests
end

section
/-! What one edge keeps of the framer's registers: the framer's invariant (42_stream_framer.md R122 to R127). -/

namespace Sys2Proof.Machine

/-- The invariant speaks of the framer and the input buffer alone. -/
theorem framerInv_of_same_framer {P : Params} {s t : State} (hf : t.fr = s.fr) (hi : t.input = s.input)
    (h : framerInv P s) : framerInv P t := by
  unfold framerInv signatureUpTo at h ⊢
  rwa [hf, hi]

/-- With no file in progress only the offset and the cursor are constrained. -/
theorem framerInv_of_not_busy {P : Params} {s : State} (hb : s.fr.busy = false)
    (ho : s.fr.payloadOffset = offsetOf s.fr.mode) (hc : s.fr.cursor ≤ s.fr.len.toNat) : framerInv P s :=
  ⟨ho, hc, by simp [hb], by simp [hb], by simp [hb]⟩

/-- Past the feed loop, until the outcome, no more is asked than of any file in progress. -/
theorem framerInv_of_after_feed {P : Params} {s : State} (ho : s.fr.payloadOffset = offsetOf s.fr.mode)
    (hc : s.fr.cursor ≤ s.fr.len.toNat) (hq : s.fr.status = .none ∧ s.fr.done = false ∧ s.fr.rdErr = false)
    (hh : ∀ k, s.fr.stage ≠ .header k) (hs : s.fr.stage ≠ .feed) : framerInv P s :=
  ⟨ho, hc, fun _ => hq, fun _ k h => absurd h (hh k), fun _ h => absurd h hs⟩

theorem signatureUpTo_zero (s : State) : signatureUpTo s 0 :=
  ⟨Nat.zero_le _, fun j h => absurd h (Nat.not_lt_zero j.val)⟩

/-- A signature matched up to `n` has each of its first `n` bytes in place. -/
theorem signatureByteAt_of_signatureUpTo {s : State} {n : Nat} {k : Fin 7} (h : signatureUpTo s n) (hk : k.val < n) :
    signatureByteAt s.fr s.input k :=
  ⟨Nat.lt_of_lt_of_le hk h.1, h.2 k hk⟩

/-- One matched byte more (42_stream_framer.md R122). -/
theorem signatureUpTo_succ {s : State} {k : Fin 7} (h : signatureUpTo s k.val) (hk : signatureByteAt s.fr s.input k) :
    signatureUpTo s (k.val + 1) := by
  refine ⟨hk.1, fun j hj => ?_⟩
  obtain hlt | heq : j.val < k.val ∨ j.val = k.val := by omega
  · exact h.2 j hlt
  · rw [Fin.ext heq]; exact hk.2

/-- The empty and the oversize test end the file; otherwise the feed loop begins at the payload's first byte, below L. -/
theorem framerInv_enterPayload {P : Params} {s : State} {mode : Mode}
    (hq : s.fr.status = .none ∧ s.fr.done = false ∧ s.fr.rdErr = false) (hc : s.fr.cursor = 0) (hp : s.fr.phase = .high)
    (hm : mode = .headered ↔ signatureUpTo s 7) : framerInv P { s with fr := enterPayload P s.fr mode } := by
  by_cases hempty : s.fr.len.toNat ≤ offsetOf mode
  · rw [enterPayload_empty hempty]
    exact framerInv_of_not_busy rfl rfl (by simp [hc])
  · by_cases hover : P.maxPayloadBytes < s.fr.len.toNat - offsetOf mode
    · rw [enterPayload_oversize (by omega) hover]
      exact framerInv_of_not_busy rfl rfl (by simp [hc])
    · rw [enterPayload_feed (by omega) (by omega)]
      have hbelow : offsetOf mode < s.fr.len.toNat := by omega
      have hbound : s.fr.len.toNat - offsetOf mode ≤ P.maxPayloadBytes := by omega
      exact ⟨rfl, hbelow.le, fun _ => hq, fun _ k h => (by cases h),
        fun _ _ => ⟨le_rfl, hbelow, hbound, hm, fun h => absurd (hp.symm.trans h) (by decide)⟩⟩

/-- The signature test: a match goes on or settles HEADERED, a mismatch settles RAW. -/
theorem framerInv_headerTick {P : Params} {s : State} {k : Fin 7} (h : framerInv P s) (hb : s.fr.busy = true)
    (hs : s.fr.stage = .header k) : framerInv P { s with fr := headerTick P s.fr s.input k } := by
  obtain ⟨hoff, hcur, hquiet, hheader, -⟩ := h
  obtain ⟨hmode, hzero, hphase, hsig⟩ := hheader hb k hs
  by_cases hk : signatureByteAt s.fr s.input k
  · have hsucc := signatureUpTo_succ hsig hk
    by_cases hlast : k.val + 1 < 7
    · rw [headerTick_more hk hlast]
      refine ⟨hoff, hcur, fun _ => hquiet hb, fun _ j hj => ?_, fun _ h => (by cases h)⟩
      obtain rfl : (⟨k.val + 1, hlast⟩ : Fin 7) = j := by simpa using hj
      exact ⟨hmode, hzero, hphase, hsucc⟩
    · rw [headerTick_last hk hlast]
      have hseven : k.val + 1 = 7 := by omega
      exact framerInv_enterPayload (hquiet hb) hzero hphase (iff_of_true rfl (hseven ▸ hsucc))
  · rw [headerTick_mismatch hk]
    have hno : ¬ signatureUpTo s 7 := fun h7 => hk (signatureByteAt_of_signatureUpTo h7 k.isLt)
    exact framerInv_enterPayload (hquiet hb) hzero hphase (iff_of_false (by decide) hno)

theorem feedTick_high {f : Framer} {m : Memory} {abort : Bool} (hp : f.phase = .high) :
    feedTick f m abort = { f with curByte := Memory.read m f.cursor, phase := .low, aborted := f.aborted || abort,
                                  stage := if abort then .drain else .feed } := by
  simp only [feedTick, hp]

theorem feedTick_low {f : Framer} {m : Memory} {abort : Bool} (hp : f.phase = .low) :
    feedTick f m abort = { f with cursor := f.cursor + 1, phase := .high, aborted := f.aborted || abort,
                                  stage := if abort || decide (f.len.toNat ≤ f.cursor + 1) then .drain else .feed } := by
  simp only [feedTick, hp]

/-- The feed loop: the high nibble leaves the cursor and loads its byte, the low one moves it on and stays only below L. -/
theorem framerInv_feedTick {P : Params} {s : State} (abort : Bool) (h : framerInv P s) (hb : s.fr.busy = true)
    (hs : s.fr.stage = .feed) : framerInv P { s with fr := feedTick s.fr s.input abort } := by
  obtain ⟨hoff, hcur, hquiet, -, hfeed⟩ := h
  obtain ⟨hle, hlt, hbound, hmode, -⟩ := hfeed hb hs
  cases hp : s.fr.phase with
  | high =>
    rw [feedTick_high hp]
    refine ⟨hoff, hcur, fun _ => hquiet hb, fun _ j hj => ?_, fun _ _ => ⟨hle, hlt, hbound, hmode, fun _ => rfl⟩⟩
    cases abort <;> cases hj
  | low =>
    rw [feedTick_low hp]
    refine ⟨hoff, hlt, fun _ => hquiet hb, fun _ j hj => ?_, fun _ hstay => ?_⟩
    · revert hj; dsimp only; split <;> exact nofun
    · have hnext : s.fr.cursor + 1 < s.fr.len.toNat := by
        by_contra hend
        simp [Nat.le_of_not_lt hend] at hstay
      exact ⟨Nat.le_succ_of_le hle, hnext, hbound, hmode, nofun⟩

/-- The framer's own progress keeps its invariant, stage by stage. -/
theorem framerInv_framerTick {P : Params} {s : State} (h : framerInv P s) :
    framerInv P { s with fr := framerTick P s } := by
  have ⟨hoff, hcur, hquiet, _⟩ := h
  cases hb : s.fr.busy with
  | false => rw [framerTick_idle hb]; exact framerInv_of_not_busy hb hoff hcur
  | true =>
    obtain ⟨hstatus, hdone, herr⟩ := hquiet hb
    have hsame : ({ s.fr with done := false } : Framer) = s.fr := by rw [← hdone]
    cases hs : s.fr.stage with
    | header k => rw [framerTick_header hb hs, hsame]; exact framerInv_headerTick h hb hs
    | feed => rw [framerTick_feed hb hs, hsame]; exact framerInv_feedTick _ h hb hs
    | drain => rw [framerTick_drain hb hs]; exact framerInv_of_after_feed hoff hcur ⟨hstatus, rfl, herr⟩ nofun nofun
    | finish => rw [framerTick_finish hb hs]; exact framerInv_of_after_feed hoff hcur ⟨hstatus, rfl, herr⟩ nofun nofun
    | wait =>
      rw [framerTick_wait hb hs, hsame]
      split
      · exact framerInv_of_not_busy rfl hoff hcur
      · exact h

/-- A START begins at cursor 0 with nothing of the signature tested, or ends at once (42_stream_framer.md R120, R121). -/
theorem framerInv_startFramer {P : Params} (s : State) (f : Framer) (p : Pins) :
    framerInv P { s with fr := startFramer f p } := by
  cases hr : p.rdErr with
  | true =>
    simp only [startFramer, hr, if_true]
    exact framerInv_of_not_busy rfl rfl (Nat.zero_le _)
  | false =>
    simp only [startFramer, hr, Bool.false_eq_true, if_false]
    refine ⟨rfl, Nat.zero_le _, fun _ => ⟨rfl, rfl, rfl⟩, fun _ k hk => ?_, fun _ hk => (by cases hk)⟩
    obtain rfl : (0 : Fin 7) = k := by simpa using hk
    exact ⟨rfl, rfl, rfl, signatureUpTo_zero _⟩

/-- Placing a buffer keeps the invariant, as it happens outside a file, unless RESET discards the file. -/
theorem framerInv_placeBuffer {P : Params} {s s₀ : State} (hp : placeBuffer s = .ok s₀) (h : framerInv P s)
    (hr : s₀.now.pins.rst = false) : framerInv P s₀ := by
  have ⟨hoff, hcur, _⟩ := h
  obtain ⟨-, rfl⟩ | ⟨m, -, hb | hrst, rfl⟩ := placeBuffer_cases hp
  · exact h
  · exact framerInv_of_not_busy hb hoff hcur
  · simp [hrst] at hr

/-- Every kind of edge answers a state that meets the invariant; RESET needs nothing of the state before it. -/
theorem framerInv_edgeKind {P : Params} {s t : State} (hk : EdgeKind P s t) (h : s.now.pins.rst = false → framerInv P s) :
    framerInv P t := by
  cases hk with
  | reset _ => exact framerInv_of_not_busy rfl rfl (Nat.zero_le _)
  | start _ _ _ => exact framerInv_of_same_framer rfl rfl (framerInv_startFramer s s.fr s.now.pins)
  | feed _ hr _ _ _ => exact framerInv_of_same_framer rfl rfl (framerInv_framerTick (h hr))
  | quiet hr _ _ => exact framerInv_of_same_framer rfl rfl (framerInv_framerTick (h hr))
  | direct _ hr _ _ _ => exact framerInv_of_same_framer rfl rfl (framerInv_framerTick (h hr))

/-- In every build a step that goes on keeps the framer's invariant. -/
theorem stepOn_keeps_framerInv {P : Params} {s t : State} (h : framerInv P s) (hst : stepOn P s = .next t) :
    framerInv P t := by
  obtain ⟨s₀, s₁, hp, hk, rfl⟩ := stepOn_cases hst
  exact framerInv_of_same_framer (nextDrive_fr s₁) (nextDrive_input s₁) (framerInv_edgeKind hk (framerInv_placeBuffer hp h))

/-- Settles O43: the framer's invariant holds after each kind of edge. -/
theorem everyStepKeepsTheFramersRegistersConsistent : Obligations.EveryStepKeepsTheFramersRegistersConsistent :=
  fun _ _ h hst => stepOn_keeps_framerInv h (step_eq _ ▸ hst)

end Sys2Proof.Machine
end

section
/-! The decoder's two registers: the clamped sums they take, and which edges write them
(41_adpcm_decode.md R82 to R88, 10_state.md R23). -/

namespace Sys2Proof.Machine

/-- DECODE_NIBBLE follows the six steps of 41_adpcm_decode.md R83 in the integers. -/
theorem decodedBy_decodeNibble (P : Params) (d : Decoder) (n : Nibble) :
    decodedBy d (decodeNibble P d n) (P.indexDelta.get n.toFin) (magnitude (P.stepSize.get d.stepIndex) n) (signBit n) :=
  ⟨nextIndex_val P d.stepIndex n, nextPredicted_toInt P d.stepIndex d.predicted n, rfl, sampleOf_toInt _⟩

/-- Settles O8: both sums are the clamped integers, and a clamp leaves a sum inside its bounds alone. -/
theorem registersHoldTheClampedExactSums : Obligations.RegistersHoldTheClampedExactSums := by
  intro P d n
  have hdec := decodedBy_decodeNibble P d n
  have ⟨hindex, hpred, _, _⟩ := hdec
  obtain ⟨hlo, hhi⟩ := predictor_mem (decodeNibble P d n).predicted
  refine ⟨hdec, Nat.le_of_lt_succ (Fin.isLt _), hlo, hhi, fun v hv h₁ h₂ => ?_, fun v hv h₁ h₂ => ?_⟩
  · rw [hindex, ← hv, clamp_of_mem h₁ h₂]
  · rw [hpred, ← hv, clamp_of_mem h₁ h₂]

/-- An edge that carries no nibble, INIT, RESET or START leaves both registers. -/
theorem registers_of_edgeKind {P : Params} {s t : State} (hk : EdgeKind P s t) (hr : s.now.pins.rst = false)
    (hfeed : s.fr.busy = true → s.fr.stage ≠ .feed)
    (hpins : s.fr.busy = false → s.now.pins.start = false ∧ s.now.pins.init = false ∧ s.now.pins.inValid = false) :
    t.dec.stepIndex = s.dec.stepIndex ∧ t.dec.predicted = s.dec.predicted := by
  cases hk with
  | reset hrst => simp [hr] at hrst
  | start _ hb hstart => simp [(hpins hb).1] at hstart
  | feed _ _ hb hs _ => exact absurd hs (hfeed hb)
  | quiet _ _ _ => exact ⟨rfl, rfl⟩
  | direct d _ hb _ hd =>
    obtain ⟨-, hinit, hvalid⟩ := hpins hb
    obtain rfl : d = { s.dec with outValid := false } := by simpa [hinit, hvalid] using hd
    exact ⟨rfl, rfl⟩

/-- Settles O36: of the five kinds of edge only the quiet one and an idle direct one remain. -/
theorem onlyCommandsWriteTheDecoder : Obligations.OnlyCommandsWriteTheDecoder := by
  intro s t hst hr hfeed hpins
  obtain ⟨s₀, s₁, hp, hk, rfl⟩ := step_cases hst
  obtain ⟨hdec, hfr, -, -, hnow, -⟩ := placeBuffer_keeps hp
  rw [nextDrive_dec, ← hdec]
  rw [← hnow] at hr hpins
  rw [← hfr] at hfeed hpins
  exact registers_of_edgeKind hk hr hfeed hpins

end Sys2Proof.Machine
end

section
/-! SAMPLE_RATE is written by START and RESET alone (10_state.md R36, 43_container_writer.md R144). -/

namespace Sys2Proof.Machine

/-- SAMPLE_RATE after an edge, from its three sources. -/
theorem sampleRate_of_edgeKind {P : Params} {s t : State} (hk : EdgeKind P s t) :
    t.wr.sampleRate = if s.now.pins.rst then Config.resetSampleRate
      else if startTaken s then s.now.pins.sampleRate else s.wr.sampleRate := by
  cases hk with
  | reset hr => simp [hr, Writer.initial]
  | start hr hb hs => simp [startTaken, hr, hb, hs, startWriter]
  | feed _ hr hb _ _ => simp [startTaken, hr, hb]
  | quiet hr hb _ => simp [startTaken, hr, hb]
  | direct _ hr _ hs _ => simp [startTaken, hr, hs]

/-- The same of a whole step: placing a buffer and the next edge's pins touch no register of the writer. -/
theorem sampleRate_of_stepOn {P : Params} {s t : State} (hst : stepOn P s = .next t) :
    t.wr.sampleRate = if s.now.pins.rst then Config.resetSampleRate
      else if startTaken s then s.now.pins.sampleRate else s.wr.sampleRate := by
  obtain ⟨s₀, s₁, hp, hk, rfl⟩ := stepOn_cases hst
  obtain ⟨-, hfr, hwr, -, hnow, -⟩ := placeBuffer_keeps hp
  rw [nextDrive_wr, sampleRate_of_edgeKind hk, startTaken, startTaken, hfr, hwr, hnow]

/-- Settles O41: the three cases of the rate after a step. -/
theorem sampleRateChangesOnlyAtStartOrReset : Obligations.SampleRateChangesOnlyAtStartOrReset := by
  intro s t hst
  rw [sampleRate_of_stepOn (step_eq s ▸ hst)]
  refine ⟨fun hr hkeep => ?_, fun hr hb hs => ?_, fun hr => ?_⟩
  · have hnot : startTaken s = false := by obtain h | h := hkeep <;> simp [startTaken, h]
    simp [hr, hnot]
  · simp [startTaken, hr, hb, hs]
  · simp [hr, Config.resetSampleRate]

end Sys2Proof.Machine
end

section
/-! RESET, the frame of the decoder's commands, and the observation ports. -/

namespace Sys2Proof.Machine

/-- Settles O16: RESET's meaning names every listed value, and `rst` comes first in the selection. -/
theorem resetLoadsEveryListedValue : Obligations.ResetLoadsEveryListedValue := by
  have hexec : ∀ P s, ∃ t, execOn P .reset s = .next t ∧ holdsReset P t ∧ outsideUnchanged s t := fun P s =>
    ⟨_, execOn_reset P s, ⟨rfl, rfl, rfl, rfl, rfl, rfl, rfl, rfl, rfl, rfl, rfl⟩,
      fun _ => rfl, rfl, rfl, rfl, rfl⟩
  refine ⟨fun s => ?_, hexec, fun s hr => ?_⟩
  · rw [exec_eq]; exact hexec Config.build s
  · simp [fetch, commandLines, hr, Except.map, decodeCommand]

/-- The commands of the decoder alone: a nibble code, INIT or IDLE. -/
theorem encodeCode_or_init_or_idle {i : Instr} (hr : i ≠ .reset) (hs : i ≠ .framerStart) :
    (∃ n, encodeCode i = some n) ∨ i = .init ∨ i = .idle := by
  cases i with
  | reset => exact absurd rfl hr
  | framerStart => exact absurd rfl hs
  | init => exact .inr (.inl rfl)
  | idle => exact .inr (.inr rfl)
  | _ => exact .inl ⟨_, rfl⟩

/-- A command of the decoder alone changes nothing but the decoder (10_state.md R23). -/
theorem exec_writes_decoder_only {i : Instr} {s t : State} (hr : i ≠ .reset) (hs : i ≠ .framerStart)
    (h : exec i s = .next t) : t = { s with dec := t.dec } := by
  obtain ⟨n, hn⟩ | rfl | rfl := encodeCode_or_init_or_idle hr hs
  · rw [exec_code hn] at h; cases h; rfl
  · rw [exec_init] at h; cases h; rfl
  · rw [exec_idle] at h; cases h; rfl

/-- Settles O19: the frame of a command that writes the decoder only; IDLE writes only `out_valid` there. -/
theorem decoderCommandsLeaveEverythingElse : Obligations.DecoderCommandsLeaveEverythingElse := by
  intro i s t hr hs h
  have hidle : i = .idle → t.dec.stepIndex = s.dec.stepIndex ∧ t.dec.predicted = s.dec.predicted := by
    rintro rfl
    rw [exec_idle] at h; cases h; exact ⟨rfl, rfl⟩
  rw [exec_writes_decoder_only hr hs h] at hidle ⊢
  exact ⟨rfl, rfl, ⟨fun _ => rfl, rfl, rfl, rfl, rfl⟩, hidle⟩

theorem bufferInv_resetOf (P : Params) : bufferInv (State.resetOf P) :=
  ⟨rfl, nofun, fun _ h => absurd h List.not_mem_nil⟩

theorem framerInv_resetOf (P : Params) : framerInv P (State.resetOf P) :=
  framerInv_of_not_busy rfl rfl (Nat.zero_le _)

theorem countInv_resetOf (P : Params) : countInv P (State.resetOf P) := nofun

theorem writerInv_resetOf (P : Params) : writerInv P (State.resetOf P) :=
  ⟨Nat.zero_le _, nofun, fun _ => rfl, nofun, nofun⟩

theorem samplesInv_resetOf (P : Params) : samplesInv (State.resetOf P) := fun _ h => absurd h List.not_mem_nil

/-- Settles O47: the reset state of every build meets them, with no file, no sample and no buffer. -/
theorem resetMeetsEveryInvariant : Obligations.ResetMeetsEveryInvariant :=
  ⟨bufferInv_resetOf _, framerInv_resetOf _, countInv_resetOf _, writerInv_resetOf _, samplesInv_resetOf _⟩

/-- The codes 6 and 7 name no status (60_exceptions.md R171). -/
theorem statusCode_le_five (c : Status) : (statusCode c).toNat ≤ 5 := by
  cases c <;> decide

/-- The six bits of `dbg_step_index` hold the index whole (10_state.md R33). -/
theorem dbgStepIndex_toNat (d : Decoder) : (dbgStepIndex d).toNat = d.stepIndex.val := by
  have hlt := d.stepIndex.isLt
  rw [dbgStepIndex, BitVec.toNat_ofNat, Nat.mod_eq_of_lt (by omega)]

/-- Settles O60: the table of status codes, and each port as a function of its register. -/
theorem statusCodesAndObservationPorts : Obligations.StatusCodesAndObservationPorts :=
  ⟨rfl, rfl, rfl, rfl, rfl, rfl, fun s => statusCode_le_five s.fr.status,
    fun d => ⟨dbgStepIndex_toNat d, rfl, sampleOf_toInt d.predicted⟩⟩

end Sys2Proof.Machine
end

section
/-! A byte stands for two nibbles and a sample for two bytes: strings in which every entry is spelt out as a pair
(30_encoding.md R61, 43_container_writer.md R148), and the byte the writer stages (43_container_writer.md R150). -/

namespace Sys2Proof.Machine

/-- Entry `k` of a string spelt out in pairs stands at the places `2k` and `2k + 1`. -/
theorem getElem?_flatMap_pair {α β : Type} (f g : α → β) : ∀ (xs : List α) (k : Nat),
    (xs.flatMap fun x => [f x, g x])[2 * k]? = xs[k]?.map f ∧
    (xs.flatMap fun x => [f x, g x])[2 * k + 1]? = xs[k]?.map g
  | [], _ => ⟨rfl, rfl⟩
  | _ :: _, 0 => ⟨rfl, rfl⟩
  | _ :: xs, k + 1 => getElem?_flatMap_pair f g xs k

theorem imageByte_header {P : Params} {rate : Word32} {buf : List Sample} {k : Nat} (h : k < 44) :
    imageByte P rate buf k = (riffHeader rate buf.length)[k]?.getD 0#8 := by
  unfold imageByte; cases P.containerFormat; exact if_pos h

/-- The two bytes of sample `j`, low byte first. -/
theorem imageByte_sample (P : Params) (rate : Word32) (buf : List Sample) (j : Nat) :
    imageByte P rate buf (44 + 2 * j) = (buf[j]?.getD 0#16).extractLsb' 0 8 ∧
    imageByte P rate buf (44 + (2 * j + 1)) = (buf[j]?.getD 0#16).extractLsb' 8 8 := by
  have hhigh : (2 * j + 1) / 2 = j := by omega
  unfold imageByte; cases P.containerFormat
  simp [hhigh, Nat.add_mod]

/-- The staged byte is the image's: in the header, as a sample's low byte, or as its high byte. -/
theorem containerImage_getElem? {P : Params} {rate : Word32} {buf : List Sample} {k : Nat}
    (h : k < imageLength buf.length) : (containerImage P rate buf)[k]? = some (imageByte P rate buf k) := by
  rw [containerImage_parts]
  by_cases hk : k < 44
  · have hin : k < (riffHeader rate buf.length).length := by simpa using hk
    rw [List.getElem?_append_left hin, imageByte_header hk, List.getElem?_eq_getElem hin, Option.getD_some]
  · obtain ⟨n, rfl⟩ := Nat.exists_eq_add_of_le (Nat.le_of_not_lt hk)
    rw [List.getElem?_append_right (by simp), riffHeader_length, Nat.add_sub_cancel_left]
    have hj : n / 2 < buf.length := by unfold imageLength at h; omega
    obtain ⟨hlow, hhigh⟩ := imageByte_sample P rate buf (n / 2)
    obtain ⟨hplow, hphigh⟩ :=
      getElem?_flatMap_pair (fun x : Sample => x.extractLsb' 0 8) (fun x => x.extractLsb' 8 8) buf (n / 2)
    rw [List.getElem?_eq_getElem hj] at hlow hhigh hplow hphigh
    obtain hn | hn : n = 2 * (n / 2) ∨ n = 2 * (n / 2) + 1 := by omega
    · rw [hn, hlow]; exact hplow
    · rw [hn, hhigh]; exact hphigh

/-- Settles O54: every offset of the image, header and samples alike. -/
theorem stagedByteIsTheImagesByte : Obligations.StagedByteIsTheImagesByte :=
  fun _ _ _ _ => containerImage_getElem?

/-- A byte's nibbles are its digits to the base 16 (20_memory.md R46). -/
theorem nibbles_toNat (b : Byte) :
    (highNibble b).toNat = b.toNat / 16 % 16 ∧ (lowNibble b).toNat = b.toNat % 16 := by
  simp [highNibble, lowNibble, Nat.shiftRight_eq_div_pow]

/-- Settles O4: the digits of a byte, packing and splitting as inverses, and the pairs of a string. -/
theorem bytesCarryTwoNibblesHighFirst : Obligations.BytesCarryTwoNibblesHighFirst := by
  refine ⟨fun b => ⟨(nibbles_toNat b).1, (nibbles_toNat b).2, BitVec.extractLsb'_append_extractLsb'⟩,
    fun hi lo => ⟨BitVec.extractLsb'_append_eq_left, BitVec.extractLsb'_append_eq_right⟩, fun bs => ⟨?_, fun k h => ?_⟩⟩
  · simp [nibblesOf, Nat.mul_comm]
  · have hpair := getElem?_flatMap_pair highNibble lowNibble bs k
    rwa [List.getElem?_eq_getElem h] at hpair

end Sys2Proof.Machine
end

section
/-! The writer's registers agree with each other at every edge, and the sink gets whole images only
(20_memory.md R45, 43_container_writer.md R141, R150 to R152). -/

namespace Sys2Proof.Machine

/-- The invariant speaks of the decoder, the framer and the writer alone. -/
theorem writerInv_of_same_blocks {P : Params} {s t : State} (hd : t.dec = s.dec) (hf : t.fr = s.fr) (hw : t.wr = s.wr)
    (h : writerInv P s) : writerInv P t := by
  unfold writerInv at h ⊢
  rwa [hd, hf, hw]

theorem writerInv_placeBuffer {P : Params} {s s₀ : State} (hp : placeBuffer s = .ok s₀) (h : writerInv P s) :
    writerInv P s₀ := by
  obtain ⟨hd, hf, hw, -⟩ := placeBuffer_keeps hp
  exact writerInv_of_same_blocks hd hf hw h

/-- The decoder has no sample to hand over while the framer finishes and waits. -/
def quietAtFinish (s : State) : Prop :=
  s.fr.busy = true → s.fr.stage = .finish ∨ s.fr.stage = .wait → s.dec.outValid = false

/-- An idle writer with nothing staged. -/
theorem writerInv_of_idle {P : Params} {s : State} (hlen : s.wr.sampleBuf.length ≤ sampleCapacity P)
    (hw : s.wr.stage = .idle) (hempty : s.wr.staging = []) (hq : quietAtFinish s) : writerInv P s :=
  ⟨hlen, fun _ => hw, fun _ => hempty, hq, fun h => absurd (hw.symm.trans h) (by decide)⟩

/-- An append never passes the capacity (43_container_writer.md R141). -/
theorem writerBuffer_length_le {P : Params} {s : State} (h : s.wr.sampleBuf.length ≤ sampleCapacity P) :
    (writerBuffer P s).length ≤ sampleCapacity P := by
  cases hv : s.dec.outValid with
  | false => rwa [writerBuffer_invalid hv]
  | true =>
    rw [writerBuffer_valid hv]
    obtain ⟨hroom, heq⟩ | ⟨-, heq⟩ := appendSample_cases P s.wr.sampleBuf (outSample s.dec)
    · rw [heq, List.length_append]; exact hroom
    · rwa [heq]

/-- Staging one byte more of a beginning of the image leaves a beginning of the image. -/
theorem stageByte_prefix {P : Params} {w : Writer} (h : w.staging <+: containerImage P w.sampleRate w.sampleBuf)
    (hlt : w.staging.length < imageLength w.sampleBuf.length) :
    stageByte P w <+: containerImage P w.sampleRate w.sampleBuf := by
  have hbyte := containerImage_getElem? (P := P) (rate := w.sampleRate) hlt
  obtain ⟨rest, hrest⟩ := h
  rw [← hrest, List.getElem?_append_right le_rfl, Nat.sub_self] at hbyte
  cases rest with
  | nil => cases hbyte
  | cons b rest =>
    obtain rfl : b = _ := by simpa using hbyte
    exact ⟨rest, by simp [stageByte, ← hrest]⟩

/-- A staging writer while the framer waits. -/
theorem writerInv_of_staging {P : Params} {s : State} (hlen : s.wr.sampleBuf.length ≤ sampleCapacity P)
    (hdone : s.wr.wDone = false) (hw : s.wr.stage = .staging) (hd : s.dec.outValid = false) (hb : s.fr.busy = true)
    (hs : s.fr.stage = .wait) (hr : rateLegal s.wr.sampleRate = true)
    (hpre : s.wr.staging <+: containerImage P s.wr.sampleRate s.wr.sampleBuf) : writerInv P s :=
  ⟨hlen, fun h => absurd (hdone.symm.trans h) (by decide), fun h => absurd (hw.symm.trans h) (by decide), fun _ _ => hd,
    fun _ => ⟨hb, hs, hr, List.prefix_iff_eq_take.mp hpre⟩⟩

/-- Outside the wait for its answer the writer is idle. -/
theorem writer_idle_of_not_waiting {P : Params} {s : State} (h : writerInv P s)
    (hs : ¬ (s.fr.busy = true ∧ s.fr.stage = .wait)) : s.wr.stage = .idle := by
  obtain ⟨-, -, -, -, hstaging⟩ := h
  cases hw : s.wr.stage with
  | idle => rfl
  | staging => exact absurd ⟨(hstaging hw).1, (hstaging hw).2.1⟩ hs

/-- What an edge without RESET or START leaves beside the decoder `d`. -/
def besideDecoder (P : Params) (s : State) (d : Decoder) : State :=
  { s with dec := d, fr := framerTick P s, wr := writerTick P s, sink := sinkTick s }

/-- An idle writer that is not asked to finish appends at most. -/
theorem writerInv_rest {P : Params} {s : State} {d : Decoder} (h : writerInv P s) (hw : s.wr.stage = .idle)
    (hf : finishPort s = false) (hq : quietAtFinish (besideDecoder P s d)) : writerInv P (besideDecoder P s d) := by
  obtain ⟨hlen, -, hempty, -, -⟩ := h
  rw [besideDecoder, writerTick_rest hw hf]
  exact writerInv_of_idle (writerBuffer_length_le hlen) hw (hempty hw) hq

/-- FINISH: an illegal rate leaves the writer idle, a legal one begins the image (43_container_writer.md R143, R150). -/
theorem writerInv_finish {P : Params} {s : State} {d : Decoder} (h : writerInv P s) (hb : s.fr.busy = true)
    (hs : s.fr.stage = .finish) (hd : d.outValid = false) : writerInv P (besideDecoder P s d) := by
  have hw := writer_idle_of_not_waiting h (by simp [hs])
  have hfin : finishPort s = true := by simp [finishPort, hb, hs]
  obtain ⟨hlen, -, hempty, hquiet, -⟩ := h
  have hbuf := writerBuffer_invalid (P := P) (hquiet hb (.inl hs))
  rw [besideDecoder, framerTick_finish hb hs]
  cases hr : rateLegal s.wr.sampleRate with
  | false =>
    rw [writerTick_illegal hw hfin hr, hbuf]
    exact writerInv_of_idle hlen hw (hempty hw) fun _ _ => hd
  | true =>
    rw [writerTick_begin hw hfin hr, hbuf]
    have hpre := stageByte_prefix (P := P) (w := s.wr) (by simp [hempty hw]) (by simp [hempty hw, imageLength])
    exact writerInv_of_staging hlen rfl rfl hd hb rfl hr hpre

/-- While the writer stages, its image grows by a byte, or is committed and the staging emptied. -/
theorem writerInv_staging {P : Params} {s : State} {d : Decoder} (h : writerInv P s) (hw : s.wr.stage = .staging)
    (hd : d.outValid = false) : writerInv P (besideDecoder P s d) := by
  obtain ⟨hlen, hdone, -, hquiet, hstaging⟩ := h
  obtain ⟨hb, hs, hr, hpre⟩ := hstaging hw
  have hbuf := writerBuffer_invalid (P := P) (hquiet hb (.inr hs))
  have hnot : ¬ s.wr.wDone = true := fun hdn => absurd ((hdone hdn).symm.trans hw) (by decide)
  rw [besideDecoder, framerTick_wait hb hs, if_neg hnot]
  cases hc : sinkCommit s.wr with
  | true =>
    rw [writerTick_commit hw hc, hbuf]
    exact writerInv_of_idle hlen rfl rfl fun _ _ => hd
  | false =>
    rw [writerTick_stage hw hc, hbuf]
    have hlt := Nat.lt_of_not_le (mt (sinkCommit_staging hw).mpr (by simp [hc]))
    exact writerInv_of_staging hlen rfl hw hd hb hs hr (stageByte_prefix (List.prefix_iff_eq_take.mpr hpre) hlt)

/-- An edge of a file that drives no nibble: at rest, at FINISH, or staging. -/
theorem writerInv_quiet {P : Params} {s : State} {d : Decoder} (h : writerInv P s) (hd : d.outValid = false) :
    writerInv P (besideDecoder P s d) := by
  cases hw : s.wr.stage with
  | staging => exact writerInv_staging h hw hd
  | idle =>
    cases hf : finishPort s with
    | false => exact writerInv_rest h hw hf fun _ _ => hd
    | true =>
      obtain ⟨hb, hs⟩ : s.fr.busy = true ∧ s.fr.stage = .finish := by simpa [finishPort] using hf
      exact writerInv_finish h hb hs hd

/-- A feed edge stays in the loop or goes to the drain (42_stream_framer.md R127, R130). -/
theorem feedTick_stage (f : Framer) (m : Memory) (abort : Bool) :
    (feedTick f m abort).stage = .feed ∨ (feedTick f m abort).stage = .drain := by
  cases hp : f.phase with
  | high => rw [feedTick_high hp]; cases abort <;> simp
  | low => rw [feedTick_low hp]; dsimp only; split <;> simp

/-- Every kind of edge keeps the writer's invariant; outside a file and in its feed loop the writer is idle. -/
theorem writerInv_edgeKind {P : Params} {s t : State} (hk : EdgeKind P s t) (h : writerInv P s) : writerInv P t := by
  cases hk with
  | reset _ => exact writerInv_of_idle (Nat.zero_le _) rfl rfl fun _ _ => rfl
  | start _ _ _ => exact writerInv_of_idle (Nat.zero_le _) rfl rfl fun _ _ => rfl
  | quiet _ _ _ => exact writerInv_quiet h rfl
  | feed _ _ hb hs _ =>
    refine writerInv_rest h (writer_idle_of_not_waiting h (by simp [hs])) (by simp [finishPort, hs]) fun _ hfin => ?_
    simp only [besideDecoder, framerTick_feed hb hs] at hfin
    obtain hst | hst := feedTick_stage { s.fr with done := false } s.input s.now.abort <;> simp [hst] at hfin
  | direct _ _ hb _ _ =>
    refine writerInv_rest h (writer_idle_of_not_waiting h (by simp [hb])) (by simp [finishPort, hb]) fun hbusy _ => ?_
    simp [besideDecoder, framerTick_idle hb, hb] at hbusy

/-- In every build a step that goes on keeps the writer's invariant. -/
theorem stepOn_keeps_writerInv {P : Params} {s t : State} (h : writerInv P s) (hst : stepOn P s = .next t) :
    writerInv P t := by
  obtain ⟨s₀, s₁, hp, hk, rfl⟩ := stepOn_cases hst
  exact writerInv_of_same_blocks (nextDrive_dec s₁) (nextDrive_fr s₁) (nextDrive_wr s₁)
    (writerInv_edgeKind hk (writerInv_placeBuffer hp h))

/-- Settles O45: the writer's invariant holds after each kind of edge. -/
theorem everyStepKeepsTheStagingAPartOfTheImage : Obligations.EveryStepKeepsTheStagingAPartOfTheImage :=
  fun _ _ h hst => stepOn_keeps_writerInv h (step_eq _ ▸ hst)

/-- What an edge from `s` to `t` gives the sink: nothing and no good report, or the whole image and a good report. -/
def givesWholeImageOrNothing (P : Params) (s t : State) : Prop :=
  (t.sink = s.sink ∧ ¬ (t.wr.wDone = true ∧ t.wr.wOk = true)) ∨
  (t.sink = s.sink ++ [containerImage P s.wr.sampleRate s.wr.sampleBuf] ∧ rateLegal s.wr.sampleRate = true ∧
    s.now.pins.sinkErr = false ∧ s.now.pins.rst = false ∧ t.wr.wDone = true ∧ t.wr.wOk = true)

theorem givesWholeImageOrNothing_of_not_done {P : Params} {s t : State} (hsink : t.sink = s.sink)
    (hdone : t.wr.wDone = false) : givesWholeImageOrNothing P s t :=
  .inl ⟨hsink, fun h => absurd (hdone.symm.trans h.1) (by decide)⟩

/-- At a commit the staging is the whole image. -/
theorem staging_eq_image_of_sinkCommit {P : Params} {s : State} (h : writerInv P s) (hw : s.wr.stage = .staging)
    (hc : sinkCommit s.wr = true) : s.wr.staging = containerImage P s.wr.sampleRate s.wr.sampleBuf := by
  obtain ⟨-, -, -, -, hstaging⟩ := h
  obtain ⟨-, -, -, hpre⟩ := hstaging hw
  have hfull := (sinkCommit_staging hw).mp hc
  rwa [List.take_of_length_le (by rwa [containerImage_length])] at hpre

/-- An edge that commits nothing reports no good result: only FINISH at an illegal rate reports, and it reports failure. -/
theorem writerTick_no_good_report {P : Params} {s : State} (hc : sinkCommit s.wr = false) :
    ¬ ((writerTick P s).wDone = true ∧ (writerTick P s).wOk = true) := by
  cases hw : s.wr.stage with
  | staging => simp [writerTick_stage hw hc]
  | idle =>
    cases hf : finishPort s with
    | false => simp [writerTick_rest hw hf]
    | true =>
      cases hr : rateLegal s.wr.sampleRate with
      | false => simp [writerTick_illegal hw hf hr]
      | true => simp [writerTick_begin hw hf hr]

/-- The writer's own progress: the sink accepts the commit, or refuses it, or there is none. -/
theorem givesWholeImageOrNothing_besideDecoder {P : Params} {s : State} (d : Decoder) (h : writerInv P s)
    (hr : s.now.pins.rst = false) : givesWholeImageOrNothing P s (besideDecoder P s d) := by
  cases hc : sinkCommit s.wr with
  | false => exact .inl ⟨sinkTick_quiet hc, writerTick_no_good_report hc⟩
  | true =>
    have hw : s.wr.stage = .staging := by
      by_contra hne
      simp [sinkCommit, hne] at hc
    have himage := staging_eq_image_of_sinkCommit h hw hc
    obtain ⟨-, -, -, -, hstaging⟩ := h
    obtain ⟨-, -, hrate, -⟩ := hstaging hw
    have hcommit := writerTick_commit (P := P) hw hc
    cases he : s.now.pins.sinkErr with
    | true => exact .inl (by simp [besideDecoder, sinkTick, hcommit, he])
    | false => exact .inr (by simp [besideDecoder, sinkTick, hcommit, hc, he, hrate, hr, himage])

theorem givesWholeImageOrNothing_edgeKind {P : Params} {s t : State} (hk : EdgeKind P s t) (h : writerInv P s) :
    givesWholeImageOrNothing P s t := by
  cases hk with
  | reset _ => exact givesWholeImageOrNothing_of_not_done rfl rfl
  | start _ _ _ => exact givesWholeImageOrNothing_of_not_done rfl rfl
  | feed _ hr _ _ _ => exact givesWholeImageOrNothing_besideDecoder _ h hr
  | quiet hr _ _ => exact givesWholeImageOrNothing_besideDecoder _ h hr
  | direct _ hr _ _ _ => exact givesWholeImageOrNothing_besideDecoder _ h hr

/-- In every build a step that goes on gives the sink a whole image or nothing. -/
theorem stepOn_givesWholeImageOrNothing {P : Params} {s t : State} (h : writerInv P s) (hst : stepOn P s = .next t) :
    givesWholeImageOrNothing P s t := by
  obtain ⟨s₀, s₁, hp, hk, rfl⟩ := stepOn_cases hst
  have hgives := givesWholeImageOrNothing_edgeKind hk (writerInv_placeBuffer hp h)
  obtain ⟨-, -, hw, hsink, hnow, -⟩ := placeBuffer_keeps hp
  unfold givesWholeImageOrNothing at hgives ⊢
  rwa [hw, hsink, hnow, ← nextDrive_sink s₁, ← nextDrive_wr s₁] at hgives

/-- Settles O48: at each kind of edge, and so for the step. -/
theorem sinkGetsWholeImagesOnly : Obligations.SinkGetsWholeImagesOnly :=
  fun _ _ h hst => stepOn_givesWholeImageOrNothing h (step_eq _ ▸ hst)

end Sys2Proof.Machine
end

section
/-! The input buffer: its canonical form, its reads below L, and what RESET and START leave of it
(20_memory.md R40, R42). -/

namespace Sys2Proof.Machine

/-- The buffer's invariant speaks of the buffer and the caller's script alone. -/
theorem bufferInv_of_same_outside {s t : State} (hi : t.input = s.input) (hn : t.now = s.now) (hl : t.later = s.later)
    (h : bufferInv s) : bufferInv t := by
  unfold bufferInv at h ⊢
  rwa [hi, hn, hl]

/-- The buffer placed is one the caller's script holds. -/
theorem bufferInv_placeBuffer {s s₀ : State} (hp : placeBuffer s = .ok s₀) (h : bufferInv s) : bufferInv s₀ := by
  obtain ⟨-, rfl⟩ | ⟨m, hm, -, rfl⟩ := placeBuffer_cases hp
  · exact h
  · obtain ⟨-, hnow, hlater⟩ := h
    exact ⟨hnow m hm, hnow, hlater⟩

/-- No command and no block writes the buffer or the caller's script (20_memory.md R40). -/
theorem edgeKind_keeps_outside {P : Params} {s t : State} (hk : EdgeKind P s t) :
    t.input = s.input ∧ t.now = s.now ∧ t.later = s.later := by
  cases hk <;> exact ⟨rfl, rfl, rfl⟩

/-- The next drive is the script's first, or past its end places nothing. -/
theorem bufferInv_nextDrive {s : State} (h : bufferInv s) : bufferInv (nextDrive s) := by
  obtain ⟨hin, -, hlater⟩ := h
  unfold nextDrive
  split
  next hl => exact ⟨hin, nofun, hlater⟩
  next d ds hl =>
    rw [hl, List.forall_mem_cons] at hlater
    exact ⟨hin, hlater.1, hlater.2⟩

/-- In every build a step that goes on keeps the buffers canonical. -/
theorem stepOn_keeps_bufferInv {P : Params} {s t : State} (h : bufferInv s) (hst : stepOn P s = .next t) :
    bufferInv t := by
  obtain ⟨s₀, s₁, hp, hk, rfl⟩ := stepOn_cases hst
  obtain ⟨hi, hn, hl⟩ := edgeKind_keeps_outside hk
  exact bufferInv_nextDrive (bufferInv_of_same_outside hi hn hl (bufferInv_placeBuffer hp h))

/-- Settles O42: placing, the edge and the next drive each keep the canonical form. -/
theorem everyStepKeepsBuffersCanonical : Obligations.EveryStepKeepsBuffersCanonical :=
  fun _ _ h hst => stepOn_keeps_bufferInv h (step_eq _ ▸ hst)

theorem memRead_beyond {m : Memory} {len : Word32} {a : Nat} (h : len.toNat ≤ a) :
    memRead m len a = .error .inputReadOutOfRange := if_neg (Nat.not_lt.mpr h)

/-- Where nothing is placed, placing leaves the state. -/
theorem placeBuffer_none {s : State} (h : s.now.place = none) : placeBuffer s = .ok s := by
  simp [placeBuffer, h]

/-- With no RESET the feed loop selects the command of the framer's nibble, and stops where that nibble's read does. -/
theorem fetch_feed {s : State} (hb : s.fr.busy = true) (hs : s.fr.stage = .feed) (hr : s.now.pins.rst = false) :
    fetch s = (feedNibble s).map decodeCode := by
  cases hn : feedNibble s <;> simp [fetch, commandLines, hr, hb, decValid, hs, hn, Except.map, decodeCommand, Command.low]

/-- A command is selected at every edge but a feed edge whose nibble cannot be read. -/
theorem fetch_ok {s : State}
    (h : s.now.pins.rst = false → s.fr.busy = true → s.fr.stage = .feed → ∃ n, feedNibble s = .ok n) :
    ∃ i, fetch s = .ok i := by
  cases hr : s.now.pins.rst with
  | true => exact ⟨.reset, by simp [fetch, commandLines, hr, Except.map, decodeCommand]⟩
  | false =>
    cases hb : s.fr.busy with
    | false => simp [fetch, commandLines, hr, hb, Except.map]
    | true =>
      by_cases hs : s.fr.stage = .feed
      · obtain ⟨n, hn⟩ := h hr hb hs
        exact ⟨decodeCode n, by rw [fetch_feed hb hs hr, hn]; rfl⟩
      · simp [fetch, commandLines, hr, hb, decValid, hs, Except.map]

/-- Settles O32: the two sides of L, and the feed edge whose high nibble lies beyond it. -/
theorem readsBeyondTheBufferFault : Obligations.ReadsBeyondTheBufferFault := by
  refine ⟨fun m len a => ⟨memRead_ok, memRead_beyond⟩, fun s hb hs hp hc hr hpl => ?_⟩
  have hn : feedNibble s = .error .inputReadOutOfRange := by simp [feedNibble, hp, memRead_beyond hc, Except.map]
  exact step_fault_iff.mpr ⟨s, placeBuffer_none hpl, by rw [fetch_feed hb hs hr, hn]; rfl⟩

/-- Placing is refused to no caller that keeps the buffer. -/
theorem placeBuffer_ok {s : State} (h : callerKeepsBuffer s) : ∃ s₀, placeBuffer s = .ok s₀ := by
  unfold placeBuffer
  split
  next => exact ⟨s, rfl⟩
  next m hm =>
    obtain hnone | hb | hr := h
    · cases hm.symm.trans hnone
    · simp [hb]
    · simp [hr]

/-- Inside the framer's invariant the feed loop's cursor is below L, so its nibble is there (42_stream_framer.md R126). -/
theorem feedNibble_ok {P : Params} {s : State} (h : framerInv P s) (hb : s.fr.busy = true) (hs : s.fr.stage = .feed) :
    ∃ n, feedNibble s = .ok n := by
  obtain ⟨-, -, -, -, hfeed⟩ := h
  obtain ⟨-, hlt, -⟩ := hfeed hb hs
  unfold feedNibble
  cases s.fr.phase with
  | high => exact ⟨_, by rw [memRead_ok hlt]; rfl⟩
  | low => exact ⟨_, rfl⟩

/-- Settles O34: nothing is refused at placing, and the command's selection reads below L. -/
theorem noFaultInsideTheInvariant : Obligations.NoFaultInsideTheInvariant := by
  intro s h hkeep
  obtain ⟨s₀, hp⟩ := placeBuffer_ok hkeep
  obtain ⟨i, hf⟩ := fetch_ok fun hr hb hs => feedNibble_ok (framerInv_placeBuffer hp h hr) hb hs
  obtain ⟨s₁, he⟩ := exec_total i s₀
  exact ⟨_, step_of hp hf he⟩

/-- START keeps `cur_byte`, also where `rd_err` ends the file at once. -/
theorem startFramer_curByte (f : Framer) (p : Pins) : (startFramer f p).curByte = f.curByte := by
  unfold startFramer; cases p.rdErr <;> rfl

/-- Settles O20: RESET, START, and the START that is ignored during a file. -/
theorem resetAndStartLeaveBufferAndSink : Obligations.ResetAndStartLeaveBufferAndSink := by
  rintro i s t (rfl | rfl) hex
  · rw [exec_reset] at hex; cases hex
    exact ⟨⟨fun _ => rfl, rfl, rfl, rfl, rfl⟩, nofun⟩
  · cases hb : s.fr.busy with
    | true =>
      rw [exec_framerStart_busy hb] at hex; cases hex
      exact ⟨⟨fun _ => rfl, rfl, rfl, rfl, rfl⟩, fun _ => ⟨rfl, rfl⟩⟩
    | false =>
      rw [exec_framerStart hb] at hex; cases hex
      exact ⟨⟨fun _ => rfl, rfl, rfl, rfl, rfl⟩, fun _ => ⟨startFramer_curByte s.fr s.now.pins, rfl⟩⟩

end Sys2Proof.Machine
end

section
/-! A file's nibbles through the decoder, and instances side by side (20_memory.md R47, R57). -/

namespace Sys2Proof.Machine

theorem decodeNibbles_length (P : Params) : ∀ (d : Decoder) (ns : List Nibble), (decodeNibbles P d ns).2.length = ns.length
  | _, [] => rfl
  | d, n :: ns => congrArg (· + 1) (decodeNibbles_length P (decodeNibble P d n) ns)

/-- The decoder's state carries over from one sequence to the next. -/
theorem decodeNibbles_append (P : Params) : ∀ (d : Decoder) (as bs : List Nibble),
    decodeNibbles P d (as ++ bs) =
      ((decodeNibbles P (decodeNibbles P d as).1 bs).1,
       (decodeNibbles P d as).2 ++ (decodeNibbles P (decodeNibbles P d as).1 bs).2)
  | _, [], _ => rfl
  | d, a :: as, bs => by
    simp only [List.cons_append, decodeNibbles, decodeNibbles_append P (decodeNibble P d a) as bs]

/-- The last sample is the one of the last nibble's decode. -/
theorem decodeNibbles_getLast? (P : Params) (d : Decoder) {ns : List Nibble} (h : ns ≠ []) :
    (decodeNibbles P d ns).2.getLast? = some (sampleOf (decodeNibbles P d ns).1.predicted) := by
  obtain ⟨front, n, rfl⟩ := (List.eq_nil_or_concat' ns).resolve_left h
  simp [decodeNibbles_append, decodeNibbles]

/-- Settles O14: the count, the carry-over from one sequence to the next, and the last sample. -/
theorem oneSamplePerNibbleInOrder : Obligations.OneSamplePerNibbleInOrder :=
  fun P d as bs => ⟨decodeNibbles_length P d as, decodeNibbles_append P d as bs, decodeNibbles_getLast? P d⟩

theorem stepInstance_none {P : Params} {sys : List State} {j : Nat} (h : sys[j]? = none) :
    stepInstance P j sys = .next sys := by
  simp [stepInstance, h]

theorem stepInstance_next {P : Params} {sys : List State} {j : Nat} {s t : State} (h : sys[j]? = some s)
    (hst : stepOn P s = .next t) : stepInstance P j sys = .next (sys.set j t) := by
  simp [stepInstance, h, hst]

/-- Everything one edge of a system that goes on can do. -/
theorem stepInstance_cases {P : Params} {sys u : List State} {j : Nat} (h : stepInstance P j sys = .next u) :
    (sys[j]? = none ∧ u = sys) ∨ ∃ s t, sys[j]? = some s ∧ stepOn P s = .next t ∧ u = sys.set j t := by
  cases hs : sys[j]? with
  | none => rw [stepInstance_none hs] at h; cases h; exact .inl ⟨rfl, rfl⟩
  | some s =>
    cases hst : stepOn P s with
    | next t => rw [stepInstance_next hs hst] at h; cases h; exact .inr ⟨s, t, rfl, hst, rfl⟩
    | fault f => simp [stepInstance, hs, hst] at h
    | refused r => simp [stepInstance, hs, hst] at h

/-- An edge of number `j` changes no other number's state. -/
theorem stepInstance_frame {P : Params} {sys u : List State} {j m : Nat} (h : stepInstance P j sys = .next u)
    (hm : m ≠ j) : u[m]? = sys[m]? := by
  obtain ⟨-, rfl⟩ | ⟨s, t, -, -, rfl⟩ := stepInstance_cases h
  · rfl
  · exact List.getElem?_set_ne hm.symm

/-- The entry whose edge it is becomes what the build's step answers. -/
theorem stepInstance_own {P : Params} {sys u : List State} {j : Nat} {s : State} (h : stepInstance P j sys = .next u)
    (hs : sys[j]? = some s) : ∃ t, stepOn P s = .next t ∧ u[j]? = some t := by
  obtain ⟨hn, -⟩ | ⟨s', t, hs', hst, rfl⟩ := stepInstance_cases h
  · cases hs.symm.trans hn
  · obtain rfl : s = s' := Option.some.inj (hs.symm.trans hs')
    exact ⟨t, hst, List.getElem?_set_self (List.getElem?_eq_some_iff.mp hs).1⟩

/-- Edges of two different instances give the same system in either order. -/
theorem stepInstance_comm {P : Params} {sys u v : List State} {j k : Nat} (hjk : j ≠ k)
    (hu : stepInstance P j sys = .next u) (hv : stepInstance P k u = .next v) :
    ∃ w, stepInstance P k sys = .next w ∧ stepInstance P j w = .next v := by
  have hk := stepInstance_frame hu hjk.symm
  obtain ⟨hkn, rfl⟩ | ⟨r, r', hkr, hr, rfl⟩ := stepInstance_cases hv
  · exact ⟨sys, stepInstance_none (hk ▸ hkn), hu⟩
  · have hw := stepInstance_next (hk ▸ hkr) hr
    have hj := stepInstance_frame hw hjk
    refine ⟨_, hw, ?_⟩
    obtain ⟨hjn, rfl⟩ | ⟨s, t, hjs, hs, rfl⟩ := stepInstance_cases hu
    · exact stepInstance_none (hj.trans hjn)
    · rw [List.set_comm t r' hjk]
      exact stepInstance_next (hj.trans hjs) hs

/-- Settles O59: the frame and the own entry of an edge, where it stops, and the order of two edges. -/
theorem instancesShareNothing : Obligations.InstancesShareNothing := by
  refine ⟨fun P sys u j h => ⟨fun m => stepInstance_frame h, fun hn => ?_, fun s => stepInstance_own h⟩,
    fun P sys j s hs => ⟨fun t ht => ⟨_, stepInstance_next hs ht⟩, fun f hf => ?_, fun r hr => ?_⟩,
    fun P sys u v j k => stepInstance_comm, fun s => (step_eq s).symm⟩
  · rw [stepInstance_none hn] at h; cases h; rfl
  · simp [stepInstance, hs, hf]
  · simp [stepInstance, hs, hr]

end Sys2Proof.Machine
end

section
/-! The sample is 16 times the predictor, in every sample the writer buffers too, and the sign bit alone sets
code m + 8 apart from code m (30_encoding.md R62, R65). -/

namespace Sys2Proof.Machine

/-- 16 times the predictor is the predictor with four zero bits below it (30_encoding.md R62). -/
theorem sampleOf_eq_append (p : Predictor) : sampleOf p = p ++ 0#4 := by
  have hlt := p.isLt
  apply BitVec.eq_of_toNat_eq
  rw [sampleOf, BitVec.toNat_ofInt, BitVec.toNat_append, BitVec.toInt_eq_toNat_cond, Nat.shiftLeft_eq]
  simp only [BitVec.toNat_ofNat, Nat.zero_mod, Nat.or_zero]
  split <;> omega

theorem sampleOf_low (p : Predictor) : (sampleOf p).extractLsb' 0 4 = 0#4 := by
  rw [sampleOf_eq_append]; exact BitVec.extractLsb'_append_eq_right

theorem sampleOf_high (p : Predictor) : (sampleOf p).extractLsb' 4 12 = p := by
  rw [sampleOf_eq_append]; exact BitVec.extractLsb'_append_eq_left

/-- An append adds at most the decoder's sample, a multiple of 16 (43_container_writer.md R141). -/
theorem writerBuffer_low {P : Params} {s : State} (h : samplesInv s) :
    ∀ x ∈ writerBuffer P s, x.extractLsb' 0 4 = 0#4 := by
  cases hv : s.dec.outValid with
  | false => rwa [writerBuffer_invalid hv]
  | true =>
    rw [writerBuffer_valid hv]
    obtain ⟨-, heq⟩ | ⟨-, heq⟩ := appendSample_cases P s.wr.sampleBuf (outSample s.dec)
    · rw [heq, List.forall_mem_append]
      exact ⟨h, List.forall_mem_singleton.mpr (sampleOf_low s.dec.predicted)⟩
    · rwa [heq]

/-- RESET and START empty the buffer; at every other edge the writer appends at most. -/
theorem samplesInv_edgeKind {P : Params} {s t : State} (hk : EdgeKind P s t) (h : samplesInv s) : samplesInv t := by
  have happend : ∀ x ∈ (writerTick P s).sampleBuf, x.extractLsb' 0 4 = 0#4 := by
    rw [writerTick_sampleBuf]; exact writerBuffer_low h
  cases hk with
  | reset _ => exact List.forall_mem_nil _
  | start _ _ _ => exact List.forall_mem_nil _
  | feed _ _ _ _ _ => exact happend
  | quiet _ _ _ => exact happend
  | direct _ _ _ _ _ => exact happend

/-- In every build a step that goes on keeps the buffered samples multiples of 16. -/
theorem stepOn_keeps_samplesInv {P : Params} {s t : State} (h : samplesInv s) (hst : stepOn P s = .next t) :
    samplesInv t := by
  obtain ⟨s₀, s₁, hp, hk, rfl⟩ := stepOn_cases hst
  obtain ⟨-, -, hwr, -⟩ := placeBuffer_keeps hp
  have h₁ := samplesInv_edgeKind hk (by rwa [samplesInv, hwr])
  rwa [samplesInv, nextDrive_wr]

/-- Settles O46: the samples are multiples of 16 after each kind of edge. -/
theorem everyStepKeepsSamplesMultiplesOfSixteen : Obligations.EveryStepKeepsSamplesMultiplesOfSixteen :=
  fun _ _ h hst => stepOn_keeps_samplesInv h (step_eq _ ▸ hst)

/-- Settles O11: the sample's value, its two bit fields, its range, and each 16k as the sample of the predictor k. -/
theorem sampleIsSixteenTimesThePredictor : Obligations.SampleIsSixteenTimesThePredictor := by
  refine ⟨fun p => ?_, fun k hlo hhi => ⟨BitVec.ofInt 12 k, ?_⟩⟩
  · have hval := sampleOf_toInt p
    obtain ⟨hlo, hhi⟩ := predictor_mem p
    exact ⟨hval, sampleOf_low p, sampleOf_high p, by omega, by omega⟩
  · rw [sampleOf_toInt, toInt_ofInt_predictor hlo hhi]

/-- Adding 8 to a code below 8 sets its sign bit and keeps its magnitude bits (30_encoding.md R60). -/
theorem bits_add_eight : ∀ m : Nibble, m.toNat < 8 →
    signBit m = false ∧ signBit (m + 8#4) = true ∧
    magBit2 (m + 8#4) = magBit2 m ∧ magBit1 (m + 8#4) = magBit1 m ∧ magBit0 (m + 8#4) = magBit0 m := by
  decide

theorem magnitude_add_eight {m : Nibble} (hm : m.toNat < 8) (size : Nat) :
    magnitude size (m + 8#4) = magnitude size m := by
  obtain ⟨-, -, h2, h1, h0⟩ := bits_add_eight m hm
  simp only [magnitude, h2, h1, h0]

/-- The new index depends on the code through its delta entry alone (41_adpcm_decode.md R82). -/
theorem nextIndex_congr {P : Params} {n n' : Nibble} (h : P.indexDelta.get n.toFin = P.indexDelta.get n'.toFin)
    (i : Fin 49) : nextIndex P i n = nextIndex P i n' := by
  simp only [nextIndex, indexDeltaAt, h]

/-- Settles O9: one magnitude for both codes, added by the one and subtracted by the other. -/
theorem oppositeSignsMoveOppositely : Obligations.OppositeSignsMoveOppositely := by
  intro P d m hm
  obtain ⟨hadd, hsub, -⟩ := bits_add_eight m hm
  have hmag := magnitude_add_eight hm (P.stepSize.get d.stepIndex)
  obtain ⟨-, hpos, -⟩ := decodedBy_decodeNibble P d m
  obtain ⟨-, hneg, -⟩ := decodedBy_decodeNibble P d (m + 8#4)
  rw [hadd, if_neg Bool.false_ne_true] at hpos
  rw [hsub, if_pos rfl, hmag] at hneg
  exact ⟨⟨hmag.symm, hpos, hneg⟩, fun h => nextIndex_congr h d.stepIndex⟩

end Sys2Proof.Machine
end

section
/-! The opcode map, the port conditions and the command selected at an edge (30_encoding.md R66 to R71). -/

namespace Sys2Proof.Machine

/-- No instruction is ill-formed: no code is reserved (30_encoding.md R67). -/
theorem wellFormed_eq_true (i : Instr) : i.wellFormed = true := by
  cases i <;> rfl

/-- A word that fits four bits decodes as its code, however wide it is written. -/
theorem decodeTableWord_of_lt {k w : Nat} (hk : k ≠ 0) (hw : w < 16) :
    decodeTableWord k w = some (decodeCode (BitVec.ofNat 4 w)) := by
  rw [decodeTableWord, decodeWord, if_neg hk, if_pos hw]; rfl

/-- A word with a bit above bit 3 is no code (30_encoding.md R68). -/
theorem decodeTableWord_wide {w : Nat} (hw : 16 ≤ w) (k : Nat) : decodeTableWord k w = none := by
  rw [decodeTableWord, decodeWord, if_neg (Nat.not_lt.mpr hw)]
  split <;> rfl

/-- Settles O1: the sixteen words at both widths, and the words that fit no code. -/
theorem tableWordsDecodeToTheirCodes : Obligations.TableWordsDecodeToTheirCodes := by
  refine ⟨fun k hk => ?_, fun n => wellFormed_eq_true _, fun k w hw => decodeTableWord_wide hw k⟩
  have hk0 : k ≠ 0 := by omega
  simp (disch := decide) only [decodeTableWord_of_lt hk0]
  decide

/-- The opcode map undoes the code table of an instruction that has a code. -/
theorem decodeCode_of_encodeCode {i : Instr} {n : Nibble} (h : encodeCode i = some n) : decodeCode n = i := by
  cases i <;> cases h <;> rfl

/-- The port condition of each instruction selects it. -/
theorem decodeCommand_encode (i : Instr) : decodeCommand (encode i) = i := by
  cases i <;> rfl

/-- Settles O2: the lines and back, a code and back, and codes name instructions uniquely. -/
theorem encodedCommandsDecodeBack : Obligations.EncodedCommandsDecodeBack :=
  ⟨fun i _ => decodeCommand_encode i, encodeCode_decodeCode,
    fun _ _ _ hi hj => (decodeCode_of_encodeCode hi).symm.trans (decodeCode_of_encodeCode hj)⟩

/-- Outside a file the pins select by the priority of 30_encoding.md R70. -/
theorem fetch_pins {s : State} (hr : s.now.pins.rst = false) (hb : s.fr.busy = false) :
    fetch s = .ok (if s.now.pins.start then .framerStart else if s.now.pins.init then .init
      else if s.now.pins.inValid then decodeCode s.now.pins.inNibble else .idle) := by
  simp [fetch, commandLines, hr, hb, Except.map, decodeCommand]

/-- During a file the decoder idles at every edge outside the feed loop. -/
theorem fetch_outside_feed {s : State} (hr : s.now.pins.rst = false) (hb : s.fr.busy = true) (hs : s.fr.stage ≠ .feed) :
    fetch s = .ok .idle := by
  simp [fetch, commandLines, hr, hb, decValid, hs, Except.map, decodeCommand, Command.low]

/-- RESET comes first, in and out of a file; what is selected without it follows. -/
theorem fetch_reset_or {s : State} {i : Instr} (h : s.now.pins.rst = false → fetch s = .ok i) :
    fetch s = .ok (if s.now.pins.rst then .reset else i) := by
  cases hr : s.now.pins.rst with
  | true => simp [fetch, commandLines, hr, Except.map, decodeCommand]
  | false => exact h hr

/-- Settles O3: RESET first, then the pins outside a file and the framer's lines in one. -/
theorem edgeCommandFollowsThePriority : Obligations.EdgeCommandFollowsThePriority :=
  ⟨fun _ hb hst => fetch_reset_or fun hr => by rw [fetch_pins hr hb, hst]; rfl,
    fun _ hb hst => fetch_reset_or fun hr => by rw [fetch_pins hr hb, hst]; rfl,
    fun _ hb hs => fetch_reset_or fun hr => fetch_outside_feed hr hb hs,
    fun _ _ hb hs hn => fetch_reset_or fun hr => by rw [fetch_feed hb hs hr, hn]; rfl⟩

/-- No command's meaning writes the buffer or the caller's script. -/
theorem execOn_keeps_outside {P : Params} {i : Instr} {s t : State} (h : execOn P i s = .next t) :
    t.input = s.input ∧ t.now = s.now ∧ t.later = s.later := by
  cases i with
  | framerStart =>
    cases hb : s.fr.busy with
    | true => rw [execOn_framerStart_busy hb] at h; cases h; exact ⟨rfl, rfl, rfl⟩
    | false => rw [execOn_framerStart hb] at h; cases h; exact ⟨rfl, rfl, rfl⟩
  | _ => cases h; exact ⟨rfl, rfl, rfl⟩

/-- The other blocks' progress leaves the decoder, the buffer and the caller's script. -/
theorem blocksTick_keeps (P : Params) (i : Instr) (s s' : State) :
    (blocksTick P i s s').dec = s'.dec ∧ (blocksTick P i s s').input = s'.input ∧
    (blocksTick P i s s').now = s'.now ∧ (blocksTick P i s s').later = s'.later := by
  unfold blocksTick; split <;> exact ⟨rfl, rfl, rfl, rfl⟩

/-- RESET and START are all of what happens to the blocks at their edge. -/
theorem blocksTick_reset_or_start {i : Instr} (hi : i = .reset ∨ i = .framerStart) (P : Params) (s s' : State) :
    blocksTick P i s s' = s' := by
  obtain rfl | rfl := hi <;> rfl

/-- Beside a command of the decoder alone the framer, the writer and the sink make their own edge. -/
theorem blocksTick_decoder_command {i : Instr} (hr : i ≠ .reset) (hs : i ≠ .framerStart) (P : Params) (s s' : State) :
    blocksTick P i s s' = { s' with fr := framerTick P s, wr := writerTick P s, sink := sinkTick s } := by
  obtain ⟨n, hn⟩ | rfl | rfl := encodeCode_or_init_or_idle hr hs
  · exact blocksTick_code hn P s s'
  · rfl
  · rfl

/-- A step of any build is the selected command's meaning, the other blocks' edge and the next pins. -/
theorem stepOn_performsCommands (P : Params) : performsCommands P (execOn P) (stepOn P) := by
  intro s s₀ s₁ i hp hf he
  obtain ⟨hin, hnow, hlater⟩ := execOn_keeps_outside he
  obtain ⟨hbdec, hbin, hbnow, hblater⟩ := blocksTick_keeps P i s₀ s₁
  refine ⟨finishEdge P i s₀ s₁, stepOn_of hp hf he, ?_, ?_, ?_, fun hi => ?_, fun hr hs => ?_, ?_⟩ <;> unfold finishEdge
  · rw [nextDrive_dec, hbdec]
  · rw [nextDrive_input, hbin, hin]
  · rw [nextDrive_later, hblater, hlater]
  · rw [nextDrive_fr, nextDrive_wr, nextDrive_sink, blocksTick_reset_or_start hi]; exact ⟨rfl, rfl, rfl⟩
  · rw [nextDrive_fr, nextDrive_wr, nextDrive_sink, blocksTick_decoder_command hr hs]; exact ⟨rfl, rfl, rfl⟩
  · have hnext := nextDrive_now (blocksTick P i s₀ s₁)
    rw [hblater, hbnow, hlater, hnow] at hnext
    exact hnext

/-- Settles O25: the machine this model runs is the parametric machine at its build. -/
theorem stepPerformsTheSelectedCommand : Obligations.StepPerformsTheSelectedCommand := by
  have hexec : exec = execOn Config.build := funext fun i => funext (exec_eq i)
  have hstep : step = stepOn Config.build := funext step_eq
  refine ⟨?_, stepOn_performsCommands⟩
  rw [hexec, hstep]
  exact stepOn_performsCommands Config.build

/-- Settles O26: with no file in progress the pins select the presented code, and the framer only drops `done`. -/
theorem presentedNibbleIsPerformed : Obligations.PresentedNibbleIsPerformed := by
  intro s nbits w i hk hw hdec
  obtain rfl : decodeCode (BitVec.ofNat 4 w) = i := Option.some.inj ((decodeTableWord_of_lt hk hw).symm.trans hdec)
  obtain ⟨s₀, hp⟩ := placeBuffer_ok (s := s.withFetchWord nbits w) (.inr (.inl rfl))
  obtain ⟨hd₀, hf₀, -, -, hn₀, -⟩ := placeBuffer_keeps hp
  have hb : s₀.fr.busy = false := by rw [hf₀]; rfl
  have hfetch : fetch s₀ = .ok (decodeCode (BitVec.ofNat 4 w)) := by
    rw [fetch_pins (by rw [hn₀]; rfl) hb, hn₀]; rfl
  refine ⟨_, _, exec_decodeCode _ s, step_of hp hfetch (exec_decodeCode _ s₀), ?_, ?_⟩
    <;> rw [finishEdge, blocksTick_decodeCode]
  · rw [nextDrive_dec, decode_dec, decode_dec, hd₀]; rfl
  · rw [nextDrive_fr, framerTick_idle hb, hf₀]; rfl

end Sys2Proof.Machine
end

section
/-! DECODE_NIBBLE and its sixteen codes: the magnitude and the clamps in the integers, the rule of each code, and runs of
codes (41_adpcm_decode.md R81 to R111). -/

namespace Sys2Proof.Machine

theorem exec_eq_execOn : exec = execOn Config.build := funext fun i => funext (exec_eq i)

/-- A nibble's four bits as digits of its number (30_encoding.md R60). -/
theorem bits_eq_digits : ∀ n : Nibble,
    signBit n = decide (n.toNat / 8 % 2 = 1) ∧ magBit2 n = decide (n.toNat / 4 % 2 = 1) ∧
    magBit1 n = decide (n.toNat / 2 % 2 = 1) ∧ magBit0 n = decide (n.toNat % 2 = 1) := by
  decide

/-- The magnitude with the bits read off the code's number (30_encoding.md R64). -/
theorem magnitude_eq_digits (size : Nat) (n : Nibble) :
    magnitude size n = size / 8 + (if n.toNat / 4 % 2 = 1 then size else 0) +
      (if n.toNat / 2 % 2 = 1 then size / 2 else 0) + (if n.toNat % 2 = 1 then size / 4 else 0) := by
  obtain ⟨-, h2, h1, h0⟩ := bits_eq_digits n
  simp only [magnitude, h2, h1, h0, decide_eq_true_eq]

/-- In every build the opcode map's instructions are DECODE_NIBBLE (41_adpcm_decode.md R83). -/
theorem codesDecode_execOn (P : Params) : codesDecode P (execOn P) := by
  intro n s
  have hdec := decodedBy_decodeNibble P s.dec n
  rw [magnitude_eq_digits, (bits_eq_digits n).1] at hdec
  exact ⟨State.decode P s n, execOn_decodeCode P n s, rfl, hdec⟩

/-- Settles O5: the machine this model runs is the parametric machine at its build. -/
theorem everyCodeIsDecodeNibble : Obligations.EveryCodeIsDecodeNibble :=
  ⟨exec_eq_execOn ▸ codesDecode_execOn Config.build, codesDecode_execOn⟩

/-- A larger step size never gives a smaller magnitude: each of the floored terms is monotone. -/
theorem magnitude_mono {a b : Nat} (h : a ≤ b) (n : Nibble) : magnitude a n ≤ magnitude b n := by
  have hterm : ∀ (bit : Bool) (k : Nat), (if bit then a / k else 0) ≤ (if bit then b / k else 0) := fun bit k => by
    split
    · exact Nat.div_le_div_right h
    · exact le_rfl
  have hfull := hterm (magBit2 n) 1
  rw [Nat.div_one, Nat.div_one] at hfull
  exact Nat.add_le_add (Nat.add_le_add (Nat.add_le_add (Nat.div_le_div_right h) hfull) (hterm _ 2)) (hterm _ 4)

/-- The first and the last entry bound the default table (10_state.md R27). -/
theorem defaultStepSize_mem : ∀ k : Fin 49,
    16 ≤ Config.defaultStepSize.get k ∧ Config.defaultStepSize.get k ≤ 1552 := by
  decide

/-- A worked example of a code, from the two registers DECODE_NIBBLE computes. -/
theorem codeExample_of {i : Instr} {n : Nibble} {idx idx' : Fin 49} {p p' x : Int} (hcode : encodeCode i = some n)
    (hidx : nextIndex Config.build idx n = idx')
    (hpred : (nextPredicted Config.build idx (BitVec.ofInt 12 p) n).toInt = p') (hx : 16 * p' = x) :
    codeExample i idx p idx' p' x := by
  intro s hs hp
  refine ⟨_, exec_code hcode s, ?_, ?_, ?_⟩
  · rw [decode_dec, decodeNibble_stepIndex, hs, hidx]
  · rw [decode_dec, decodeNibble_predicted, hs, hp, hpred]
  · rw [outSample, sampleOf_toInt, decode_dec, decodeNibble_predicted, hs, hp, hpred, hx]

/-- A code follows its rule when its sign and magnitude are the rule's and the numbers of the rule come out. -/
theorem codeRule_of {i : Instr} {code : Fin 16} {sub : Bool} {d : Nat → Nat} {lo hi : Nat} {i0 i1 : Fin 49}
    {p0 x0 p1 x1 : Int} (hcode : encodeCode i = some (BitVec.ofFin code)) (hsub : signBit (BitVec.ofFin code) = sub)
    (hnums : (d 16 = lo ∧ d 1552 = hi) ∧
      (nextIndex Config.build 0 (BitVec.ofFin code) = i0 ∧
        (nextPredicted Config.build 0 (BitVec.ofInt 12 0) (BitVec.ofFin code)).toInt = p0 ∧ 16 * p0 = x0) ∧
      nextIndex Config.build 10 (BitVec.ofFin code) = i1 ∧
        (nextPredicted Config.build 10 (BitVec.ofInt 12 100) (BitVec.ofFin code)).toInt = p1 ∧ 16 * p1 = x1)
    (hmag : ∀ size, magnitude size (BitVec.ofFin code) = d size) :
    codeRule i code sub d lo hi i0 p0 x0 i1 p1 x1 := by
  obtain ⟨⟨hlo, hhi⟩, ⟨hi0, hp0, hx0⟩, hi1, hp1, hx1⟩ := hnums
  refine ⟨hcode, fun s => ⟨_, exec_code hcode s, rfl, ?_⟩, fun k => ?_, hlo, hhi,
    codeExample_of hcode hi0 hp0 hx0, codeExample_of hcode hi1 hp1 hx1⟩
  · rw [← hmag, ← hsub]
    exact decodedBy_decodeNibble Config.build s.dec (BitVec.ofFin code)
  · obtain ⟨hmin, hmax⟩ := defaultStepSize_mem k
    rw [← hlo, ← hhi, ← hmag, ← hmag, ← hmag]
    exact ⟨magnitude_mono hmin _, magnitude_mono hmax _⟩

/-- The magnitude with its terms in the order the codes' rules write them, the bias last (41_adpcm_decode.md R96 to R111). -/
theorem magnitude_bias_last (size : Nat) (n : Nibble) :
    magnitude size n = (if magBit2 n then size else 0) + (if magBit1 n then size / 2 else 0) +
      (if magBit0 n then size / 4 else 0) + size / 8 := by
  unfold magnitude; omega

/-- Settles O6: for each code the rule's numbers are computed, and its bits pick the rule's terms of the magnitude. -/
theorem addingCodesFollowTheirRules : Obligations.AddingCodesFollowTheirRules := by
  refine ⟨?_, ?_, ?_, ?_, ?_, ?_, ?_, ?_⟩ <;> refine codeRule_of rfl rfl (by decide) fun size => ?_
  all_goals simp [magnitude_bias_last, magBit2, magBit1, magBit0]

/-- Settles O7: as the adding codes, with the sign bit set. -/
theorem subtractingCodesFollowTheirRules : Obligations.SubtractingCodesFollowTheirRules := by
  refine ⟨?_, ?_, ?_, ?_, ?_, ?_, ?_, ?_⟩ <;> refine codeRule_of rfl rfl (by decide) fun size => ?_
  all_goals simp [magnitude_bias_last, magBit2, magBit1, magBit0]

/-- The bias term alone makes the magnitude positive (41_adpcm_decode.md R84). -/
theorem magnitude_pos {size : Nat} (h : 8 ≤ size) (n : Nibble) : 0 < magnitude size n := by
  have hbias : 0 < size / 8 := Nat.div_pos h (by decide)
  unfold magnitude; omega

/-- A clamp with its bounds in order, in the terms `omega` reads. -/
theorem clamp_eq_max_min (v : Int) {lo hi : Int} (h : lo ≤ hi) : clamp v lo hi = max lo (min v hi) := by
  unfold clamp; split <;> [skip; split] <;> omega

theorem predicted_of_subtracting {n : Nibble} (h : signBit n = true) (P : Params) (d : Decoder) :
    (decodeNibble P d n).predicted.toInt =
      clamp (d.predicted.toInt - magnitude (P.stepSize.get d.stepIndex) n) (-2048) 2047 := by
  have ⟨_, hpred, _, _⟩ := decodedBy_decodeNibble P d n
  rwa [h, if_pos rfl] at hpred

theorem predicted_of_adding {n : Nibble} (h : signBit n = false) (P : Params) (d : Decoder) :
    (decodeNibble P d n).predicted.toInt =
      clamp (d.predicted.toInt + magnitude (P.stepSize.get d.stepIndex) n) (-2048) 2047 := by
  have ⟨_, hpred, _, _⟩ := decodedBy_decodeNibble P d n
  rwa [h, if_neg Bool.false_ne_true] at hpred

/-- Settles O12: the magnitude is positive, so the sum leaves the rail before the clamp. -/
theorem clampedPredictorLeavesTheRail : Obligations.ClampedPredictorLeavesTheRail := by
  refine ⟨fun P d n hsize => ?_, fun s hidx hpred => ⟨_, exec_code rfl s, ?_, ?_⟩⟩
  · have hpos := magnitude_pos hsize n
    refine ⟨fun hsub hrail => ?_, fun hadd hrail => ?_⟩
    · rw [predicted_of_subtracting hsub, hrail, clamp_eq_max_min _ (by decide)]
      omega
    · rw [predicted_of_adding hadd, hrail, clamp_eq_max_min _ (by decide)]
      omega
  · rw [decode_dec, decodeNibble_stepIndex, hidx]; decide
  · rw [decode_dec, predicted_of_subtracting rfl, hidx, hpred]; decide

/-- An adding code never lowers the predictor. -/
theorem predicted_le_of_adding {n : Nibble} (h : signBit n = false) (P : Params) (d : Decoder) :
    d.predicted.toInt ≤ (decodeNibble P d n).predicted.toInt := by
  have hrange := predictor_mem d.predicted
  rw [predicted_of_adding h, clamp_eq_max_min _ (by decide)]
  omega

theorem predicted_le_of_zeros (P : Params) : ∀ (k : Nat) (d : Decoder),
    d.predicted.toInt ≤ (decodeNibbles P d (List.replicate k 0#4)).1.predicted.toInt
  | 0, _ => le_rfl
  | k + 1, d => (predicted_le_of_adding rfl P d).trans (predicted_le_of_zeros P k (decodeNibble P d 0#4))

/-- One code more at the end of a run is one DECODE_NIBBLE of the state the run left. -/
theorem decodeNibbles_replicate_succ (P : Params) (d : Decoder) (k : Nat) (n : Nibble) :
    (decodeNibbles P d (List.replicate (k + 1) n)).1 =
      decodeNibble P (decodeNibbles P d (List.replicate k n)).1 n := by
  rw [List.replicate_succ', decodeNibbles_append]; rfl

/-- The golden vector of 95_test_vectors.md section 2.8: the index stays at 0, where DEC.P0 adds 2 until the clamp. -/
theorem registers_of_zeros (k : Nat) :
    (decodeNibbles Config.build (Decoder.initial Config.build) (List.replicate k 0#4)).1.stepIndex = 0 ∧
    (decodeNibbles Config.build (Decoder.initial Config.build) (List.replicate k 0#4)).1.predicted.toInt =
      min (2 * (k : Int)) 2047 := by
  induction k with
  | zero => exact ⟨rfl, rfl⟩
  | succ k ih =>
    obtain ⟨hidx, hpred⟩ := ih
    have hmag : magnitude (Config.build.stepSize.get 0) 0#4 = 2 := by decide
    rw [decodeNibbles_replicate_succ]
    refine ⟨?_, ?_⟩
    · rw [decodeNibble_stepIndex, hidx]; decide
    · rw [predicted_of_adding rfl, hidx, hpred, hmag, clamp_eq_max_min _ (by decide)]
      omega

/-- Settles O13: in every build no step of the run falls, and in this one it is the golden vector. -/
theorem allZeroNibblesNeverFall : Obligations.AllZeroNibblesNeverFall :=
  ⟨fun P d k => predicted_le_of_zeros P k d, registers_of_zeros⟩

/-- Settles O10: the new index reads the delta table alone, the new predictor the step sizes alone. -/
theorem indexAndPredictorUpdateApart : Obligations.IndexAndPredictorUpdateApart := by
  intro P Q d e n hidx
  refine ⟨fun hdelta => ?_, fun hsize hpred => ?_⟩
  · simp only [decodeNibble_stepIndex, nextIndex, indexDeltaAt, hidx, hdelta]
  · simp only [decodeNibble_predicted, nextPredicted, stepSizeAt, hidx, hsize, hpred]

end Sys2Proof.Machine
end

section
/-! INIT, IDLE and `out_valid`: what clears it, what sets it, and that an IDLE between two nibbles is not heard
(41_adpcm_decode.md R90, R93, R95). -/

namespace Sys2Proof.Machine

/-- In every build INIT and the framer's START load the initial registers. -/
theorem initClears_execOn (P : Params) : initClears P (execOn P) :=
  ⟨fun s => ⟨_, execOn_init P s, rfl, rfl, rfl, rfl⟩, fun _ hb => ⟨_, execOn_framerStart hb, rfl, rfl, rfl⟩⟩

/-- Settles O15: the machine this model runs is the parametric machine at its build. -/
theorem initClearsTheDecoder : Obligations.InitClearsTheDecoder :=
  ⟨exec_eq_execOn ▸ initClears_execOn Config.build, initClears_execOn⟩

/-- DECODE_NIBBLE reads the two registers and not `out_valid`. -/
theorem decodeNibble_congr {d e : Decoder} (hidx : d.stepIndex = e.stepIndex) (hpred : d.predicted = e.predicted)
    (P : Params) (n : Nibble) : decodeNibble P d n = decodeNibble P e n := by
  simp only [decodeNibble, hidx, hpred]

theorem registers_of_idles (f : Nat → State) : ∀ k : Nat, (∀ j, j < k → exec .idle (f j) = .next (f (j + 1))) →
    (f k).dec.stepIndex = (f 0).dec.stepIndex ∧ (f k).dec.predicted = (f 0).dec.predicted
  | 0, _ => ⟨rfl, rfl⟩
  | k + 1, h => by
    have hlast := h k (Nat.lt_succ_self k)
    rw [exec_idle, Host.Outcome.next.injEq] at hlast
    rw [← hlast]
    exact registers_of_idles f k fun j hj => h j (Nat.lt_succ_of_lt hj)

/-- Settles O18: IDLE writes `out_valid` only, which the next DECODE_NIBBLE does not read. -/
theorem idleKeepsTheRegisters : Obligations.IdleKeepsTheRegisters := by
  refine ⟨fun s => ⟨_, exec_idle s, rfl, rfl, rfl, rfl⟩, fun k n f h => ?_⟩
  obtain ⟨hidx, hpred⟩ := registers_of_idles f k h
  exact ⟨_, _, exec_decodeCode n (f k), exec_decodeCode n (f 0), decodeNibble_congr hidx hpred _ n⟩

/-- START is selected with no file in progress only (42_stream_framer.md R133). -/
theorem not_busy_of_fetch_framerStart {s : State} (h : fetch s = .ok .framerStart) : s.fr.busy = false := by
  obtain ⟨_, hi⟩ | ⟨_, _, _, n, _, hi⟩ | ⟨_, _, _, hi⟩ | ⟨_, hb, _, _⟩ | ⟨_, hb, _⟩ := fetch_cases h
  · cases hi
  · have hnone := encodeCode_decodeCode n
    rw [← hi] at hnone; cases hnone
  · cases hi
  · exact hb
  · exact hb

/-- A command without a nibble code clears `out_valid`, FRAMER_START where it is taken (41_adpcm_decode.md R90). -/
theorem outValid_of_portCommand {i : Instr} {s t : State} (hcode : encodeCode i = none)
    (hbusy : i = .framerStart → s.fr.busy = false) (h : exec i s = .next t) : t.dec.outValid = false := by
  cases i with
  | reset => cases h; rfl
  | init => cases h; rfl
  | idle => cases h; rfl
  | framerStart => rw [exec_framerStart (hbusy rfl)] at h; cases h; rfl
  | _ => cases hcode

/-- Settles O35: the decoder after the edge is what the selected command's meaning leaves. -/
theorem outValidMarksTheDecodeEdge : Obligations.OutValidMarksTheDecodeEdge := by
  intro s s₀ i t hp hf hst
  obtain ⟨s₁, he⟩ := exec_total i s₀
  obtain ⟨t', hst', hdec, -⟩ := stepPerformsTheSelectedCommand.1 s s₀ s₁ i hp hf he
  obtain rfl : t = t' := Host.Outcome.next.inj (hst.symm.trans hst')
  rw [hdec]
  refine ⟨fun hcode => ?_, fun hcode => ?_⟩
  · obtain ⟨n, hn⟩ := Option.ne_none_iff_exists'.mp hcode
    rw [exec_code hn] at he; cases he
    exact ⟨rfl, sampleOf_toInt _⟩
  · exact outValid_of_portCommand hcode (fun hi => not_busy_of_fetch_framerStart (hi ▸ hf)) he

end Sys2Proof.Machine
end

section
/-! START, and the end of the signature test: the framer's registers, said once (42_stream_framer.md R120 to R126). -/

namespace Sys2Proof.Machine

/-- The framer with a file just begun: `L` and `rd_err` sampled, `cur_byte` kept (42_stream_framer.md R120). -/
def begunFramer (f : Framer) (p : Pins) : Framer :=
  { f with cursor := 0, phase := .high, payloadOffset := 0, mode := .raw, busy := true, status := .none,
           len := p.bufLen, rdErr := p.rdErr, done := false, stage := .header 0, aborted := false }

theorem startFramer_begins {f : Framer} {p : Pins} (h : p.rdErr = false) : startFramer f p = begunFramer f p := by
  simp [startFramer, begunFramer, h]

theorem startFramer_readFailure {f : Framer} {p : Pins} (h : p.rdErr = true) :
    startFramer f p = raiseOutcome (begunFramer f p) .readFailure := by
  simp [startFramer, begunFramer, h]

/-- START forgets everything of the file before it but `cur_byte`. -/
theorem startFramer_congr (f g : Framer) (p : Pins) :
    { startFramer f p with curByte := (startFramer g p).curByte } = startFramer g p := by
  unfold startFramer; cases p.rdErr <;> rfl

/-- Settles O21: outside a file the pins select START, and each register is as the file's beginning has it. -/
theorem startBeginsAFile : Obligations.StartBeginsAFile := by
  refine ⟨fun s hb hr hs => ⟨by rw [fetch_pins hr hb, hs]; rfl, by simp [decInit, startTaken, hs, hb, hr]⟩,
    fun s hb he => ⟨_, exec_framerStart hb, ?_⟩⟩
  rw [startFramer_begins he]
  exact ⟨rfl, rfl, rfl, rfl, rfl, rfl, rfl, rfl, rfl, rfl, rfl, rfl, rfl, rfl, fun _ => rfl, rfl, rfl, rfl, rfl⟩

/-- Settles O22: with `rd_err` the file just begun ends with the failure, nothing read. -/
theorem readFailureEndsTheFileAtOnce : Obligations.ReadFailureEndsTheFileAtOnce := by
  intro s hb he
  refine ⟨_, exec_framerStart hb, ?_⟩
  rw [startFramer_readFailure he]
  exact ⟨rfl, rfl, rfl, rfl, rfl, rfl, fun _ => rfl, rfl, rfl, rfl, rfl⟩

/-- Settles O24: a START reads of the state before it only `cur_byte` and `w_ok`, after RESET too. -/
theorem startAfterAnyOutcomeIsAsAfterReset : Obligations.StartAfterAnyOutcomeIsAsAfterReset := by
  intro s u hs hu hnow _
  refine ⟨_, _, exec_framerStart hs, exec_framerStart hu, rfl, ?_, ?_, _, _, exec_reset s, exec_framerStart rfl, rfl,
    startFramer_congr _ _ _, rfl⟩
  · rw [← hnow]; exact startFramer_congr _ _ _
  · rw [← hnow]; rfl

end Sys2Proof.Machine
end

section
/-! The count of samples over a file: one per nibble fed, and twice the payload's bytes at its finish
(42_stream_framer.md R129, 43_container_writer.md R141). -/

namespace Sys2Proof.Machine

/-- The samples of the nibbles decoded so far: those buffered, and the one on `out_sample`. -/
def decodedCount (s : State) : Nat := s.wr.sampleBuf.length + (if s.dec.outValid then 1 else 0)

/-- With room for it, the sample on `out_sample` is appended. -/
theorem writerBuffer_length {P : Params} {s : State} (h : decodedCount s ≤ sampleCapacity P) :
    (writerBuffer P s).length = decodedCount s := by
  unfold decodedCount at *
  cases hv : s.dec.outValid with
  | false => simp [writerBuffer_invalid hv]
  | true =>
    simp only [hv, if_true] at h
    simp [writerBuffer_valid hv, appendSample_room (Nat.lt_of_succ_le h)]

/-- The invariant speaks of the decoder, the framer and the writer alone. -/
theorem countInv_of_same_blocks {P : Params} {s t : State} (hd : t.dec = s.dec) (hf : t.fr = s.fr) (hw : t.wr = s.wr)
    (h : countInv P s) : countInv P t := by
  unfold countInv at h ⊢
  rwa [hd, hf, hw]

theorem countInv_of_not_busy {P : Params} {s : State} (hb : s.fr.busy = false) : countInv P s :=
  fun h => absurd (hb.symm.trans h) (by decide)

/-- In the signature test nothing is decoded yet. -/
theorem countInv_of_header {P : Params} {s : State} {k : Fin 7} (hs : s.fr.stage = .header k) (hbuf : s.wr.sampleBuf = [])
    (hd : s.dec.outValid = false) (ha : s.fr.aborted = false) (hp : s.fr.phase = .high) : countInv P s :=
  fun _ => ⟨fun _ _ => ⟨hbuf, hd, ha, hp⟩, by simp [hs], by simp [hs], by simp [hs]⟩

/-- In the feed loop the samples decoded number the nibbles fed. -/
theorem countInv_of_feed {P : Params} {s : State} (hs : s.fr.stage = .feed) (hoff : s.fr.payloadOffset ≤ s.fr.cursor)
    (hlt : s.fr.cursor < s.fr.len.toNat) (hbound : s.fr.len.toNat - s.fr.payloadOffset ≤ P.maxPayloadBytes)
    (ha : s.fr.aborted = false) (hcount : decodedCount s = fedCount s.fr) : countInv P s :=
  fun _ => ⟨by simp [hs], fun _ => ⟨hoff, hlt, hbound, ha, hcount⟩, by simp [hs], by simp [hs]⟩

/-- At the drain the last sample is still on `out_sample`, with room for it. -/
theorem countInv_of_drain {P : Params} {s : State} (hs : s.fr.stage = .drain) (hd : s.dec.outValid = true)
    (hroom : s.wr.sampleBuf.length + 1 ≤ sampleCapacity P)
    (hcount : s.fr.aborted = false → s.wr.sampleBuf.length + 1 = 2 * (s.fr.len.toNat - s.fr.payloadOffset)) : countInv P s :=
  fun _ => ⟨by simp [hs], by simp [hs], fun _ => ⟨hd, hroom, hcount⟩, by simp [hs]⟩

/-- At the finish and after it every sample is buffered. -/
theorem countInv_of_finished {P : Params} {s : State} (hs : s.fr.stage = .finish ∨ s.fr.stage = .wait)
    (hd : s.dec.outValid = false)
    (hcount : s.fr.aborted = false → s.wr.sampleBuf.length = 2 * (s.fr.len.toNat - s.fr.payloadOffset)) : countInv P s :=
  fun _ => by obtain hs | hs := hs <;> exact ⟨by simp [hs], by simp [hs], by simp [hs], fun _ => ⟨hd, hcount⟩⟩

/-- The end of the signature test ends the file, or begins the feed loop with no nibble fed. -/
theorem countInv_enterPayload {P : Params} {t : State} {f : Framer} {mode : Mode} (hfr : t.fr = enterPayload P f mode)
    (hbuf : t.wr.sampleBuf = []) (hd : t.dec.outValid = false) (ha : f.aborted = false) (hp : f.phase = .high) :
    countInv P t := by
  by_cases hempty : f.len.toNat ≤ offsetOf mode
  · rw [enterPayload_empty hempty] at hfr
    exact countInv_of_not_busy (by rw [hfr]; rfl)
  · by_cases hover : P.maxPayloadBytes < f.len.toNat - offsetOf mode
    · rw [enterPayload_oversize (by omega) hover] at hfr
      exact countInv_of_not_busy (by rw [hfr]; rfl)
    · rw [enterPayload_feed (by omega) (by omega)] at hfr
      have hnone : decodedCount t = fedCount t.fr := by simp [decodedCount, fedCount, hbuf, hd, hfr, hp]
      refine countInv_of_feed ?_ ?_ ?_ ?_ ?_ hnone <;> rw [hfr]
      · exact Nat.not_le.mp hempty
      · exact Nat.not_lt.mp hover
      · exact ha

/-- A header edge buffers nothing: it goes on with the next signature byte, or the test is over. -/
theorem countInv_header {P : Params} {s : State} {d : Decoder} {k : Fin 7} (h : countInv P s) (hb : s.fr.busy = true)
    (hs : s.fr.stage = .header k) (hd : d.outValid = false) : countInv P (besideDecoder P s d) := by
  obtain ⟨hheader, -, -, -⟩ := h hb
  obtain ⟨hbuf, hov, ha, hp⟩ := hheader k hs
  have hbuf' : (besideDecoder P s d).wr.sampleBuf = [] := by simp [besideDecoder, writerBuffer_invalid hov, hbuf]
  have hfr : (besideDecoder P s d).fr = headerTick P { s.fr with done := false } s.input k := framerTick_header hb hs
  by_cases hk : signatureByteAt { s.fr with done := false } s.input k
  · by_cases hlast : k.val + 1 < 7
    · rw [headerTick_more hk hlast] at hfr
      exact countInv_of_header (by rw [hfr]) hbuf' hd (by rw [hfr]; exact ha) (by rw [hfr]; exact hp)
    · rw [headerTick_last hk hlast] at hfr
      exact countInv_enterPayload hfr hbuf' hd ha hp
  · rw [headerTick_mismatch hk] at hfr
    exact countInv_enterPayload hfr hbuf' hd ha hp

theorem fedCount_high {f : Framer} (h : f.phase = .high) : fedCount f = 2 * (f.cursor - f.payloadOffset) := by
  simp only [fedCount, h, Nat.add_zero]

theorem fedCount_low {f : Framer} (h : f.phase = .low) : fedCount f = 2 * (f.cursor - f.payloadOffset) + 1 := by
  simp only [fedCount, h]

/-- Below L at least one of the payload's nibbles is still to be fed. -/
theorem fedCount_lt {f : Framer} (hlt : f.cursor < f.len.toNat) (hoff : f.payloadOffset ≤ f.cursor) :
    fedCount f < 2 * (f.len.toNat - f.payloadOffset) := by
  cases hp : f.phase with
  | high => rw [fedCount_high hp]; omega
  | low => rw [fedCount_low hp]; omega

@[simp] theorem feedTick_len (f : Framer) (m : Memory) (abort : Bool) : (feedTick f m abort).len = f.len := by
  unfold feedTick; split <;> rfl

@[simp] theorem feedTick_payloadOffset (f : Framer) (m : Memory) (abort : Bool) :
    (feedTick f m abort).payloadOffset = f.payloadOffset := by
  unfold feedTick; split <;> rfl

@[simp] theorem feedTick_aborted (f : Framer) (m : Memory) (abort : Bool) :
    (feedTick f m abort).aborted = (f.aborted || abort) := by
  unfold feedTick; split <;> rfl

/-- A feed edge feeds one nibble. -/
theorem fedCount_feedTick {f : Framer} (m : Memory) (abort : Bool) (hoff : f.payloadOffset ≤ f.cursor) :
    fedCount (feedTick f m abort) = fedCount f + 1 := by
  cases hp : f.phase with
  | high => rw [feedTick_high hp, fedCount_low rfl, fedCount_high hp]
  | low => rw [feedTick_low hp, fedCount_high rfl, fedCount_low hp]; dsimp only; omega

/-- After a feed edge the loop goes on inside the payload, or is left: aborted, or with the payload's last nibble fed. -/
theorem feedTick_stays_or_leaves {f : Framer} (m : Memory) (abort : Bool) (hoff : f.payloadOffset ≤ f.cursor)
    (hlt : f.cursor < f.len.toNat) :
    ((feedTick f m abort).stage = .feed ∧ abort = false ∧ f.payloadOffset ≤ (feedTick f m abort).cursor ∧
      (feedTick f m abort).cursor < f.len.toNat) ∨
    ((feedTick f m abort).stage = .drain ∧ (abort = true ∨ fedCount f + 1 = 2 * (f.len.toNat - f.payloadOffset))) := by
  cases abort with
  | true =>
    refine .inr ⟨?_, .inl rfl⟩
    cases hp : f.phase with
    | high => rw [feedTick_high hp]; rfl
    | low => rw [feedTick_low hp]; rfl
  | false =>
    cases hp : f.phase with
    | high => rw [feedTick_high hp]; exact .inl ⟨rfl, rfl, hoff, hlt⟩
    | low =>
      rw [feedTick_low hp, fedCount_low hp]
      by_cases hlast : f.len.toNat ≤ f.cursor + 1
      · exact .inr ⟨by simp [hlast], .inr (by omega)⟩
      · exact .inl ⟨by simp [hlast], rfl, Nat.le_succ_of_le hoff, Nat.not_le.mp hlast⟩

/-- A feed edge appends the nibble before it and decodes one more; the loop is left after the last, or aborted. -/
theorem countInv_feedEdge {P : Params} {s : State} {d : Decoder} (h : countInv P s) (hb : s.fr.busy = true)
    (hs : s.fr.stage = .feed) (hd : d.outValid = true) : countInv P (besideDecoder P s d) := by
  obtain ⟨-, hfeed, -, -⟩ := h hb
  obtain ⟨hoff, hlt, hbound, ha, hcount⟩ := hfeed hs
  have hfed := fedCount_lt hlt hoff
  have hcap : fedCount s.fr + 1 ≤ sampleCapacity P := by unfold sampleCapacity; omega
  have hbuf : (writerBuffer P s).length = fedCount s.fr := by
    rw [writerBuffer_length (hcount.trans_le (Nat.le_of_succ_le hcap))]; exact hcount
  have hfr : (besideDecoder P s d).fr = feedTick { s.fr with done := false } s.input s.now.abort := framerTick_feed hb hs
  have hwr : (besideDecoder P s d).wr.sampleBuf.length = fedCount s.fr := by simpa [besideDecoder] using hbuf
  have hone := fedCount_feedTick (f := { s.fr with done := false }) s.input s.now.abort hoff
  obtain ⟨hstage, hab, hle, hin⟩ | ⟨hstage, hleave⟩ :=
    feedTick_stays_or_leaves (f := { s.fr with done := false }) s.input s.now.abort hoff hlt
  · refine countInv_of_feed ?_ ?_ ?_ ?_ ?_ ?_
    · rw [hfr]; exact hstage
    · rw [hfr]; simpa using hle
    · rw [hfr]; simpa using hin
    · rw [hfr]; simpa using hbound
    · rw [hfr]; simp [ha, hab]
    · rw [hfr, hone, decodedCount, hwr, show (besideDecoder P s d).dec = d from rfl, hd]; rfl
  · refine countInv_of_drain ?_ hd ?_ ?_
    · rw [hfr]; exact hstage
    · rw [hwr]; exact hcap
    · rw [hfr, hwr]
      intro hna
      obtain hab | hlast := hleave
      · simp [hab] at hna
      · rw [feedTick_len, feedTick_payloadOffset]; exact hlast

/-- The drain appends the last sample, and from the finish on nothing is appended any more. -/
theorem countInv_after_feed {P : Params} {s : State} {d : Decoder} (h : countInv P s) (hb : s.fr.busy = true)
    (hs : s.fr.stage = .drain ∨ s.fr.stage = .finish ∨ s.fr.stage = .wait) (hd : d.outValid = false) :
    countInv P (besideDecoder P s d) := by
  obtain ⟨-, -, hdrain, hfinished⟩ := h hb
  obtain hs | hs | hs := hs
  · obtain ⟨hov, hroom, hcount⟩ := hdrain hs
    have hpending : decodedCount s = s.wr.sampleBuf.length + 1 := by simp [decodedCount, hov]
    have hbuf := writerBuffer_length (hpending.trans_le hroom)
    have hfr : (besideDecoder P s d).fr = _ := framerTick_drain hb hs
    refine countInv_of_finished (.inl (by rw [hfr])) hd ?_
    rw [hfr]
    simpa [besideDecoder, hbuf, hpending] using hcount
  · obtain ⟨hov, hcount⟩ := hfinished (.inl hs)
    have hfr : (besideDecoder P s d).fr = _ := framerTick_finish hb hs
    refine countInv_of_finished (.inr (by rw [hfr])) hd ?_
    rw [hfr]
    simpa [besideDecoder, writerBuffer_invalid hov] using hcount
  · obtain ⟨hov, hcount⟩ := hfinished (.inr hs)
    have hfr : (besideDecoder P s d).fr = _ := framerTick_wait hb hs
    cases hw : s.wr.wDone with
    | true =>
      rw [if_pos hw] at hfr
      exact countInv_of_not_busy (by rw [hfr]; rfl)
    | false =>
      rw [if_neg (by simp [hw])] at hfr
      refine countInv_of_finished (.inr (by rw [hfr]; exact hs)) hd ?_
      rw [hfr]
      simpa [besideDecoder, writerBuffer_invalid hov] using hcount

/-- A START begins with no sample, or ends the file at once (42_stream_framer.md R120, R121). -/
theorem countInv_start {P : Params} (s : State) :
    countInv P { s with dec := Decoder.initial P, fr := startFramer s.fr s.now.pins, wr := startWriter s.wr s.now.pins } := by
  cases hr : s.now.pins.rdErr with
  | true => rw [startFramer_readFailure hr]; exact countInv_of_not_busy rfl
  | false => rw [startFramer_begins hr]; exact countInv_of_header rfl rfl rfl rfl rfl

/-- Every kind of edge keeps the count of samples; outside a file there is none to keep. -/
theorem countInv_edgeKind {P : Params} {s t : State} (hk : EdgeKind P s t) (h : countInv P s) : countInv P t := by
  cases hk with
  | reset _ => exact countInv_of_not_busy rfl
  | start _ _ _ => exact countInv_start s
  | feed _ _ hb hs _ => exact countInv_feedEdge h hb hs rfl
  | quiet _ hb hs =>
    cases hstage : s.fr.stage with
    | header k => exact countInv_header h hb hstage rfl
    | feed => exact absurd hstage hs
    | drain => exact countInv_after_feed h hb (.inl hstage) rfl
    | finish => exact countInv_after_feed h hb (.inr (.inl hstage)) rfl
    | wait => exact countInv_after_feed h hb (.inr (.inr hstage)) rfl
  | direct _ _ hb _ _ => exact countInv_of_not_busy (by simp [framerTick_idle hb, hb])

/-- In every build a step that goes on keeps the count of samples. -/
theorem stepOn_keeps_countInv {P : Params} {s t : State} (h : countInv P s) (hst : stepOn P s = .next t) : countInv P t := by
  obtain ⟨s₀, s₁, hp, hk, rfl⟩ := stepOn_cases hst
  obtain ⟨hd, hf, hw, -⟩ := placeBuffer_keeps hp
  exact countInv_of_same_blocks (nextDrive_dec s₁) (nextDrive_fr s₁) (nextDrive_wr s₁)
    (countInv_edgeKind hk (countInv_of_same_blocks hd hf hw h))

/-- Settles O44: the count invariant holds after each kind of edge. -/
theorem everyStepKeepsTheSampleCount : Obligations.EveryStepKeepsTheSampleCount :=
  fun _ _ h hst => stepOn_keeps_countInv h (step_eq _ ▸ hst)

end Sys2Proof.Machine
end

section
/-! During a file only RESET and the sink's answer reach the machine from the pins (42_stream_framer.md R133,
70_reset_and_hazards.md R210). -/

namespace Sys2Proof.Machine

/-- The state with other pins at the coming edge. -/
def setPins (s : State) (p : Pins) : State := { s with now := { s.now with pins := p } }

theorem placeBuffer_setPins {s s₀ : State} {p : Pins} (hr : p.rst = s.now.pins.rst) (h : placeBuffer s = .ok s₀) :
    placeBuffer (setPins s p) = .ok (setPins s₀ p) := by
  obtain ⟨hnone, rfl⟩ | ⟨m, hm, hfree, rfl⟩ := placeBuffer_cases h
  · exact placeBuffer_none hnone
  · obtain hb | hrst := hfree
    · simp [placeBuffer, setPins, hm, hb]
    · simp [placeBuffer, setPins, hm, hr, hrst]

/-- During a file the command is the framer's, or RESET. -/
theorem fetch_setPins {s : State} {p : Pins} (hb : s.fr.busy = true) (hr : p.rst = s.now.pins.rst) :
    fetch (setPins s p) = fetch s := by
  simp only [fetch, commandLines, setPins, hr, hb, if_true]; rfl

/-- No command reads a pin during a file: START, which would, is ignored. -/
theorem execOn_setPins {P : Params} {i : Instr} {s t : State} (p : Pins) (hb : s.fr.busy = true)
    (h : execOn P i s = .next t) : execOn P i (setPins s p) = .next (setPins t p) := by
  cases i with
  | framerStart => rw [execOn_framerStart_busy hb] at h; cases h; exact execOn_framerStart_busy hb
  | _ => cases h; rfl

/-- Of the pins the blocks' own progress reads the sink's answer alone. -/
theorem blocksTick_setPins {P : Params} {s : State} {p : Pins} (he : p.sinkErr = s.now.pins.sinkErr) (i : Instr) (s' : State) :
    blocksTick P i (setPins s p) (setPins s' p) = setPins (blocksTick P i s s') p := by
  have hwr : writerTick P (setPins s p) = writerTick P s := by simp only [writerTick, setPins, he]; rfl
  have hsink : sinkTick (setPins s p) = sinkTick s := by simp only [sinkTick, setPins, he]
  cases i with
  | reset => rfl
  | framerStart => rfl
  | _ => simp only [blocksTick, hwr, hsink]; rfl

/-- During a file a step under other pins, RESET and the sink's answer the same, does the same to the blocks. -/
theorem stepOn_setPins {P : Params} {s t : State} {p : Pins} (hb : s.fr.busy = true) (hr : p.rst = s.now.pins.rst)
    (he : p.sinkErr = s.now.pins.sinkErr) (h : stepOn P s = .next t) :
    ∃ u, stepOn P (setPins s p) = .next u ∧ sameBlocks t u := by
  obtain ⟨s₀, i, s₁, hp, hf, hex, rfl⟩ := stepOn_next h
  obtain ⟨-, hfr, -, -, hnow, -⟩ := placeBuffer_keeps hp
  have hb₀ : s₀.fr.busy = true := by rw [hfr]; exact hb
  refine ⟨_, stepOn_of (placeBuffer_setPins hr hp) ((fetch_setPins hb₀ (by rw [hnow]; exact hr)).trans hf)
    (execOn_setPins p hb₀ hex), ?_⟩
  rw [finishEdge, finishEdge, blocksTick_setPins (by rw [hnow]; exact he)]
  simp [sameBlocks, setPins]

/-- Settles O38: the two pins that count are the same. -/
theorem portsAreSampledOnlyAtStart : Obligations.PortsAreSampledOnlyAtStart := by
  intro s t p hb hr hpr he hst
  rw [step_eq] at hst ⊢
  exact stepOn_setPins hb (hpr.trans hr.symm) he hst

/-- Settles O23: START is neither performed nor selected, and its pin is not among the two that count. -/
theorem startIsIgnoredWhileBusy : Obligations.StartIsIgnoredWhileBusy := by
  refine ⟨fun s hb => exec_framerStart_busy hb, fun s hb hf => ?_, fun s t hb hst b => ?_⟩
  · exact absurd ((not_busy_of_fetch_framerStart hf).symm.trans hb) (by decide)
  · rw [step_eq] at hst ⊢
    exact stepOn_setPins (p := { s.now.pins with start := b }) hb rfl rfl hst

end Sys2Proof.Machine
end

section
/-! Outcomes: when the framer ends a file, with which code, and when the abort mark is set
(42_stream_framer.md R125, R126, R130 to R132, 60_exceptions.md R170 to R182). -/

namespace Sys2Proof.Machine

/-- From `f` to `f'` no outcome is raised. -/
def goesOn (f f' : Framer) : Prop := f'.done = false ∧ f'.busy = f.busy ∧ f'.status = f.status

/-- An outcome is raised (42_stream_framer.md R132). -/
def endsWith (f' : Framer) (code : Status) : Prop := f'.done = true ∧ f'.busy = false ∧ f'.status = code

theorem endsWith_raiseOutcome (f : Framer) (code : Status) : endsWith (raiseOutcome f code) code := ⟨rfl, rfl, rfl⟩

theorem enterPayload_outcome (P : Params) {f : Framer} (hd : f.done = false) (mode : Mode) :
    goesOn f (enterPayload P f mode) ∨ endsWith (enterPayload P f mode) .skippedEmpty ∨
      endsWith (enterPayload P f mode) .writeFailure := by
  by_cases hempty : f.len.toNat ≤ offsetOf mode
  · exact .inr (.inl (enterPayload_empty hempty ▸ endsWith_raiseOutcome _ _))
  · by_cases hover : P.maxPayloadBytes < f.len.toNat - offsetOf mode
    · exact .inr (.inr (enterPayload_oversize (by omega) hover ▸ endsWith_raiseOutcome _ _))
    · rw [enterPayload_feed (by omega) (by omega)]
      exact .inl ⟨hd, rfl, rfl⟩

theorem headerTick_outcome (P : Params) {f : Framer} (hd : f.done = false) (m : Memory) (k : Fin 7) :
    goesOn f (headerTick P f m k) ∨ endsWith (headerTick P f m k) .skippedEmpty ∨
      endsWith (headerTick P f m k) .writeFailure := by
  by_cases hk : signatureByteAt f m k
  · by_cases hlast : k.val + 1 < 7
    · rw [headerTick_more hk hlast]; exact .inl ⟨hd, rfl, rfl⟩
    · rw [headerTick_last hk hlast]; exact enterPayload_outcome P hd _
  · rw [headerTick_mismatch hk]; exact enterPayload_outcome P hd _

theorem goesOn_feedTick {f : Framer} (hd : f.done = false) (m : Memory) (abort : Bool) : goesOn f (feedTick f m abort) := by
  unfold feedTick; split <;> exact ⟨hd, rfl, rfl⟩

/-- The framer's own progress goes on, or ends the file in progress with one of four codes. -/
theorem framerTick_outcome (P : Params) (s : State) :
    goesOn s.fr (framerTick P s) ∨ s.fr.busy = true ∧
      (endsWith (framerTick P s) .skippedEmpty ∨ endsWith (framerTick P s) .writeFailure ∨
        endsWith (framerTick P s) (outcomeOf s.fr.aborted s.wr.wOk)) := by
  cases hb : s.fr.busy with
  | false => rw [framerTick_idle hb]; exact .inl ⟨rfl, rfl, rfl⟩
  | true =>
    cases hs : s.fr.stage with
    | header k =>
      rw [framerTick_header hb hs]
      obtain hgo | hempty | hover := headerTick_outcome P (f := { s.fr with done := false }) rfl s.input k
      · exact .inl hgo
      · exact .inr ⟨rfl, .inl hempty⟩
      · exact .inr ⟨rfl, .inr (.inl hover)⟩
    | feed => rw [framerTick_feed hb hs]; exact .inl (goesOn_feedTick (f := { s.fr with done := false }) rfl _ _)
    | drain => rw [framerTick_drain hb hs]; exact .inl ⟨rfl, rfl, rfl⟩
    | finish => rw [framerTick_finish hb hs]; exact .inl ⟨rfl, rfl, rfl⟩
    | wait =>
      rw [framerTick_wait hb hs]
      split
      · exact .inr ⟨rfl, .inr (.inr (endsWith_raiseOutcome _ _))⟩
      · exact .inl ⟨rfl, rfl, rfl⟩

theorem enterPayload_aborted (P : Params) (f : Framer) (mode : Mode) : (enterPayload P f mode).aborted = f.aborted := by
  unfold enterPayload; dsimp only; split
  · rfl
  · split <;> rfl

/-- The abort mark is set at a feed edge with an injected abort only (42_stream_framer.md R131). -/
theorem framerTick_aborted {P : Params} {s : State} (h : (framerTick P s).aborted = true) :
    s.fr.aborted = true ∨ s.now.abort = true := by
  cases hb : s.fr.busy with
  | false => rw [framerTick_idle hb] at h; exact .inl h
  | true =>
    cases hs : s.fr.stage with
    | header k =>
      rw [framerTick_header hb hs] at h
      unfold headerTick at h
      split at h
      · split at h
        · exact .inl h
        · rw [enterPayload_aborted] at h; exact .inl h
      · rw [enterPayload_aborted] at h; exact .inl h
    | feed =>
      rw [framerTick_feed hb hs, feedTick_aborted] at h
      exact (Bool.or_eq_true _ _).mp h
    | drain => rw [framerTick_drain hb hs] at h; exact .inl h
    | finish => rw [framerTick_finish hb hs] at h; exact .inl h
    | wait => rw [framerTick_wait hb hs] at h; split at h <;> exact .inl h

/-- The framer after a step: RESET's values, START's, or those of its own progress. -/
theorem framer_of_stepOn {P : Params} {s t : State} (h : stepOn P s = .next t) :
    t.fr = Framer.initial ∧ s.now.pins.rst = true ∨
    t.fr = startFramer s.fr s.now.pins ∧ s.fr.busy = false ∧ s.now.pins.start = true ∨
    t.fr = framerTick P s := by
  obtain ⟨s₀, s₁, hp, hk, rfl⟩ := stepOn_cases h
  rw [nextDrive_fr]
  obtain ⟨-, rfl⟩ | ⟨m, -, hfree, rfl⟩ := placeBuffer_cases hp
  · cases hk with
    | reset hr => exact .inl ⟨rfl, hr⟩
    | start _ hb hs => exact .inr (.inl ⟨rfl, hb, hs⟩)
    | _ => exact .inr (.inr rfl)
  · have hnot : s.now.pins.rst = false → s.fr.busy ≠ true := by
      intro hr hb; obtain h | h := hfree <;> simp [hr, hb] at h
    cases hk with
    | reset hr => exact .inl ⟨rfl, hr⟩
    | start _ hb hs => exact .inr (.inl ⟨rfl, hb, hs⟩)
    | feed _ hr hb _ _ => exact absurd hb (hnot hr)
    | quiet hr hb _ => exact absurd hb (hnot hr)
    | direct _ _ hb _ _ => exact .inr (.inr ((framerTick_idle hb).trans (framerTick_idle (P := P) (s := s) hb).symm))

/-- A START that raises an outcome raises READ_FAILURE; otherwise the file is in progress with no status. -/
theorem startFramer_outcome (f : Framer) (p : Pins) :
    endsWith (startFramer f p) .readFailure ∨
    (startFramer f p).done = false ∧ (startFramer f p).busy = true ∧ (startFramer f p).status = .none := by
  cases hr : p.rdErr with
  | true => rw [startFramer_readFailure hr]; exact .inl (endsWith_raiseOutcome _ _)
  | false => rw [startFramer_begins hr]; exact .inr ⟨rfl, rfl, rfl⟩

theorem startFramer_aborted (f : Framer) (p : Pins) : (startFramer f p).aborted = false := by
  unfold startFramer; cases p.rdErr <;> rfl

theorem outcomeOf_ne_none (aborted wOk : Bool) : outcomeOf aborted wOk ≠ .none := by
  cases aborted <;> cases wOk <;> decide

theorem outcomeOf_partialDecode {aborted wOk : Bool} (h : outcomeOf aborted wOk = .partialDecode) :
    aborted = true ∧ wOk = true := by
  revert h; cases aborted <;> cases wOk <;> decide

theorem status_ne_none_of_endsWith {f : Framer} {code : Status} (h : endsWith f code) (hc : code ≠ .none) :
    f.busy = false ∧ f.status ≠ .none := by
  obtain ⟨-, hb, hst⟩ := h
  exact ⟨hb, hst ▸ hc⟩

/-- `done` comes with an outcome, at START and at the framer's own progress. -/
theorem outcome_of_done {P : Params} {s t : State} (h : stepOn P s = .next t) (hd : t.fr.done = true) :
    t.fr.busy = false ∧ t.fr.status ≠ .none := by
  obtain ⟨hf, -⟩ | ⟨hf, -, -⟩ | hf := framer_of_stepOn h <;> rw [hf] at hd ⊢
  · cases hd
  · obtain he | ⟨hno, -, -⟩ := startFramer_outcome s.fr s.now.pins
    · exact status_ne_none_of_endsWith he (by decide)
    · exact absurd (hno.symm.trans hd) (by decide)
  · obtain ⟨hno, -, -⟩ | ⟨-, he | he | he⟩ := framerTick_outcome P s
    · exact absurd (hno.symm.trans hd) (by decide)
    · exact status_ne_none_of_endsWith he (by decide)
    · exact status_ne_none_of_endsWith he (by decide)
    · exact status_ne_none_of_endsWith he (outcomeOf_ne_none _ _)

/-- Only an outcome clears `busy`, but for RESET. -/
theorem done_of_file_ended {P : Params} {s t : State} (h : stepOn P s = .next t) (hb : s.fr.busy = true)
    (hr : s.now.pins.rst = false) (hend : t.fr.busy = false) : t.fr.done = true := by
  obtain ⟨-, hrst⟩ | ⟨-, hidle, -⟩ | hf := framer_of_stepOn h
  · exact absurd (hr.symm.trans hrst) (by decide)
  · exact absurd (hidle.symm.trans hb) (by decide)
  · rw [hf] at hend ⊢
    obtain ⟨-, hbusy, -⟩ | ⟨-, ⟨hd, -⟩ | ⟨hd, -⟩ | ⟨hd, -⟩⟩ := framerTick_outcome P s
    · exact absurd ((hend.symm.trans hbusy).trans hb) (by decide)
    all_goals exact hd

/-- Settles O37: `done` with an outcome, every end with `done`, and no change outside a file. -/
theorem outcomesPulseDoneOnceAndHold : Obligations.OutcomesPulseDoneOnceAndHold := by
  intro s t hst
  rw [step_eq] at hst
  refine ⟨outcome_of_done hst, done_of_file_ended hst, fun hb hr hs => ?_⟩
  obtain ⟨-, hrst⟩ | ⟨-, -, hstart⟩ | hf := framer_of_stepOn hst
  · exact absurd (hr.symm.trans hrst) (by decide)
  · exact absurd (hs.symm.trans hstart) (by decide)
  · rw [hf, framerTick_idle hb]

/-- Settles O39: PARTIAL_DECODE is raised on the writer's result alone, and the mark is the feed edge's. -/
theorem partialDecodeNeedsAnInjectedAbort : Obligations.PartialDecodeNeedsAnInjectedAbort := by
  intro s t hst
  obtain ⟨hf, -⟩ | ⟨hf, -, -⟩ | hf := framer_of_stepOn (step_eq s ▸ hst) <;> rw [hf]
  · exact ⟨nofun, nofun⟩
  · refine ⟨fun hpart => ?_, fun hab => absurd ((startFramer_aborted _ _).symm.trans hab) (by decide)⟩
    obtain ⟨-, -, hst⟩ | ⟨-, -, hst⟩ := startFramer_outcome s.fr s.now.pins <;> cases hst.symm.trans hpart
  · refine ⟨fun hpart hnew => ?_, fun hab hnot => ?_⟩
    · obtain ⟨-, -, hst⟩ | ⟨-, ⟨-, -, hst⟩ | ⟨-, -, hst⟩ | ⟨-, -, hst⟩⟩ := framerTick_outcome Config.build s
      · exact absurd (hst.symm.trans hpart) hnew
      · cases hst.symm.trans hpart
      · cases hst.symm.trans hpart
      · exact outcomeOf_partialDecode (hst.symm.trans hpart)
    · exact (framerTick_aborted hab).resolve_left (by simp [hnot])

end Sys2Proof.Machine
end

section
/-! The edges of a file: the signature test, the feed loop, the drain, the staging, the commit and the wait
(42_stream_framer.md R122 to R132, 43_container_writer.md R141, R150 to R152). -/

namespace Sys2Proof.Machine

theorem feedNibble_high {s : State} (hp : s.fr.phase = .high) (hlt : s.fr.cursor < s.fr.len.toNat) :
    feedNibble s = .ok (highNibble (Memory.read s.input s.fr.cursor)) := by
  simp [feedNibble, hp, memRead_ok hlt, Except.map]

theorem feedNibble_low {s : State} (hp : s.fr.phase = .low) : feedNibble s = .ok (lowNibble s.fr.curByte) := by
  simp only [feedNibble, hp]

/-- Settles O27: the feed edge of each phase, where no abort is injected. -/
theorem feedLoopDecodesHighThenLow : Obligations.FeedLoopDecodesHighThenLow := by
  intro s hb hs hr hpl hab
  refine ⟨fun hp hlt => ⟨_, step_feed hb hs hr hpl (feedNibble_high hp hlt), nextDrive_dec _, ?_⟩,
    fun hp => ⟨_, step_feed hb hs hr hpl (feedNibble_low hp), nextDrive_dec _, ?_⟩⟩
  · rw [nextDrive_fr]
    simp only [framerTick_feed hb hs, feedTick_high (f := { s.fr with done := false }) hp, hab]
    simp [hs]
  · rw [nextDrive_fr]
    simp only [framerTick_feed hb hs, feedTick_low (f := { s.fr with done := false }) hp, hab]
    by_cases hlast : s.fr.len.toNat ≤ s.fr.cursor + 1
    · simp [hlast, Nat.not_lt.mpr hlast]
    · simp [hlast, Nat.not_le.mp hlast]

/-- An append only adds to the samples buffered. -/
theorem writerBuffer_extends (P : Params) (s : State) : s.wr.sampleBuf <+: writerBuffer P s := by
  cases hv : s.dec.outValid with
  | false => rw [writerBuffer_invalid hv]
  | true =>
    rw [writerBuffer_valid hv]
    obtain ⟨-, heq⟩ | ⟨-, heq⟩ := appendSample_cases P s.wr.sampleBuf (outSample s.dec) <;> rw [heq]
    exact List.prefix_append _ _

theorem feedTick_stage_of_abort (f : Framer) (m : Memory) : (feedTick f m true).stage = .drain := by
  unfold feedTick; split <;> rfl

/-- Settles O31: the nibble is there in both phases, and the abort leads to the drain. -/
theorem injectedAbortStopsAfterTheNibble : Obligations.InjectedAbortStopsAfterTheNibble := by
  intro s hb hs hr hpl hab hlt
  obtain ⟨n, hn⟩ : ∃ n, feedNibble s = .ok n := by
    cases hp : s.fr.phase with
    | high => exact ⟨_, feedNibble_high hp (hlt hp)⟩
    | low => exact ⟨_, feedNibble_low hp⟩
  have hfr := framerTick_feed (P := Config.build) hb hs
  obtain ⟨-, hbusy, -⟩ := goesOn_feedTick (f := { s.fr with done := false }) rfl s.input s.now.abort
  refine ⟨_, n, step_feed hb hs hr hpl hn, hn, nextDrive_dec _, ?_, ?_, ?_, ?_⟩
  · rw [nextDrive_fr]; simp only [hfr, feedTick_aborted, hab, Bool.or_true]
  · rw [nextDrive_fr]; simp only [hfr, hab, feedTick_stage_of_abort]
  · rw [nextDrive_fr]; exact (congrArg Framer.busy hfr).trans (hbusy.trans hb)
  · rw [nextDrive_wr]; simp only [writerTick_sampleBuf]; exact writerBuffer_extends _ _

theorem offsetOf_le (mode : Mode) : offsetOf mode ≤ 32 := by
  cases mode <;> decide

/-- What the end of the signature test sets, whatever the tests after it say (42_stream_framer.md R122). -/
theorem enterPayload_settles (P : Params) (f : Framer) (mode : Mode) :
    (enterPayload P f mode).mode = mode ∧ (enterPayload P f mode).payloadOffset = offsetOf mode ∧
      (enterPayload P f mode).cursor ≤ max f.cursor 32 := by
  by_cases hempty : f.len.toNat ≤ offsetOf mode
  · rw [enterPayload_empty hempty]; exact ⟨rfl, rfl, le_max_left _ _⟩
  · by_cases hover : P.maxPayloadBytes < f.len.toNat - offsetOf mode
    · rw [enterPayload_oversize (by omega) hover]; exact ⟨rfl, rfl, le_max_left _ _⟩
    · rw [enterPayload_feed (by omega) (by omega)]; exact ⟨rfl, rfl, (offsetOf_le mode).trans (le_max_right _ _)⟩

/-- Settles O28: a match before the last byte, the last match, a mismatch. -/
theorem headerTestComparesByteByByte : Obligations.HeaderTestComparesByteByByte := by
  intro s k hb hs hr hpl
  refine ⟨_, step_quiet hb (by simp [hs]) hr hpl, nextDrive_dec _, ?_⟩
  rw [nextDrive_fr]
  simp only [framerTick_header hb hs]
  by_cases hk : signatureByteAt { s.fr with done := false } s.input k
  · by_cases hlast : k.val + 1 < 7
    · rw [headerTick_more hk hlast]
      exact ⟨le_max_left _ _, fun _ _ => ⟨⟨k.val + 1, hlast⟩, rfl, rfl⟩, fun _ h6 => by omega,
        fun hno => absurd hk hno⟩
    · rw [headerTick_last hk hlast]
      obtain ⟨hmode, hoff, hcur⟩ := enterPayload_settles Config.build { s.fr with done := false } .headered
      exact ⟨hcur, fun _ h6 => by omega, fun _ _ => ⟨hmode, hoff⟩, fun hno => absurd hk hno⟩
  · rw [headerTick_mismatch hk]
    obtain ⟨hmode, hoff, hcur⟩ := enterPayload_settles Config.build { s.fr with done := false } .raw
    exact ⟨hcur, fun hyes => absurd hyes hk, fun hyes => absurd hyes hk, fun _ => ⟨hmode, hoff⟩⟩

/-- The header edge that settles the mode, told by its payload offset. -/
theorem headerTick_settles {P : Params} {f : Framer} {m : Memory} {k : Fin 7} {off : Nat}
    (h : (off = 32 ∧ k.val = 6 ∧ k.val < f.len.toNat ∧ Memory.read m k.val = Config.headerSignature.get k) ∨
      (off = 0 ∧ ¬ (k.val < f.len.toNat ∧ Memory.read m k.val = Config.headerSignature.get k))) :
    ∃ mode, offsetOf mode = off ∧ headerTick P f m k = enterPayload P f mode := by
  obtain ⟨rfl, hk, hmatch⟩ | ⟨rfl, hno⟩ := h
  · exact ⟨.headered, rfl, headerTick_last hmatch (by omega)⟩
  · exact ⟨.raw, rfl, headerTick_mismatch hno⟩

/-- Settles O29: the empty test, the oversize test, and the feed loop at the payload's first byte. -/
theorem emptyAndOversizePayloadsEndBeforeDecoding : Obligations.EmptyAndOversizePayloadsEndBeforeDecoding := by
  intro s k off hb hs hr hpl hw hsettle
  obtain ⟨mode, hoff, hmode⟩ := headerTick_settles (P := Config.build) (f := { s.fr with done := false }) hsettle
  refine ⟨_, step_quiet hb (by simp [hs]) hr hpl, ?_, ?_, ?_, ?_⟩
  · rw [nextDrive_sink]; exact sinkTick_quiet (sinkCommit_idle hw)
  · rw [nextDrive_dec]
  · rw [nextDrive_dec]
  · rw [nextDrive_fr]
    simp only [framerTick_header hb hs, hmode]
    refine ⟨fun hempty => ?_, fun hover => ?_, fun hpos hbound => ?_⟩
    · rw [enterPayload_empty (by dsimp only; omega)]; exact ⟨rfl, rfl, rfl⟩
    · rw [enterPayload_oversize (by dsimp only; omega) (by dsimp only; omega)]; exact ⟨rfl, rfl, rfl⟩
    · rw [enterPayload_feed (by dsimp only; omega) (by dsimp only; omega)]; exact ⟨rfl, hb, hoff⟩

/-- Settles O30: the wait ends with the writer's result, and only with it. -/
theorem fileEndsOnTheWritersResult : Obligations.FileEndsOnTheWritersResult := by
  intro s hb hs hr hpl
  refine ⟨_, step_quiet hb (by simp [hs]) hr hpl, ?_⟩
  rw [nextDrive_fr]
  simp only [framerTick_wait hb hs]
  refine ⟨fun hd => ?_, fun hd => ?_⟩
  · rw [if_pos hd]; exact ⟨rfl, rfl, rfl⟩
  · rw [if_neg (by simp [hd])]

/-- Only a commit changes the sink. -/
theorem sink_of_stepOn {P : Params} {s t : State} (h : stepOn P s = .next t) (hc : sinkCommit s.wr = false) :
    t.sink = s.sink := by
  obtain ⟨s₀, s₁, hp, hk, rfl⟩ := stepOn_cases h
  obtain ⟨-, -, hw, hsink, -⟩ := placeBuffer_keeps hp
  rw [nextDrive_sink, ← hsink]
  rw [← hw] at hc
  cases hk with
  | reset _ => rfl
  | start _ _ _ => rfl
  | _ => exact sinkTick_quiet hc

/-- A writer with a part of its image staged does not commit yet. -/
theorem sinkCommit_of_lt {w : Writer} (hw : w.stage = .staging) (hlt : w.staging.length < imageLength w.sampleBuf.length) :
    sinkCommit w = false := by
  rw [← Bool.not_eq_true, sinkCommit_staging hw]; exact Nat.not_le.mpr hlt

/-- Settles O50: the commit edge, a staging edge, the drain edge, and every edge without a commit. -/
theorem commitAnswersWithTheSink : Obligations.CommitAnswersWithTheSink := by
  refine ⟨fun s hw hfull hb hs hr hpl => ?_, fun s hw hlt hb hs hwd hov hr hpl => ?_, fun s hb hs hw hr hpl => ?_,
    fun s t hst hc => sink_of_stepOn (step_eq s ▸ hst) hc⟩
  · have hc : sinkCommit s.wr = true := (sinkCommit_staging hw).mpr hfull
    refine ⟨_, step_quiet hb (by simp [hs]) hr hpl, ?_⟩
    rw [nextDrive_wr, nextDrive_sink]
    simp only [writerTick_commit hw hc, true_and]
    refine ⟨writerBuffer_invalid, ?_⟩
    cases he : s.now.pins.sinkErr <;> simp [sinkTick, hc, he]
  · have hc := sinkCommit_of_lt hw hlt
    refine ⟨_, step_quiet hb (by simp [hs]) hr hpl, ?_⟩
    rw [nextDrive_fr, nextDrive_wr, nextDrive_sink]
    simp only [framerTick_wait hb hs, writerTick_stage hw hc, writerBuffer_invalid hov, sinkTick_quiet hc, hwd]
    exact ⟨rfl, trivial, by rw [← hwd]; rfl⟩
  · refine ⟨_, step_quiet hb (by simp [hs]) hr hpl, ?_⟩
    rw [nextDrive_fr, nextDrive_wr, nextDrive_sink, nextDrive_dec]
    simp only [framerTick_drain hb hs, writerTick_rest hw (show finishPort s = false by simp [finishPort, hs]),
      sinkTick_quiet (sinkCommit_idle hw), true_and]
    intro hov hroom
    rw [writerBuffer_valid hov, appendSample_room hroom]

end Sys2Proof.Machine
end

section
/-! The file procedure at the transaction level: where the payload begins, and its outcome's priority
(42_stream_framer.md R122 to R124, R134, 60_exceptions.md R180). -/

namespace Sys2Proof.Machine

theorem payloadOf_headered {bs : List Byte} (h : Config.headerSignature.toList <+: bs) : payloadOf bs = bs.drop 32 := by
  rw [payloadOf, modeOf_headered h]; rfl

theorem payloadOf_raw {bs : List Byte} (h : ¬ Config.headerSignature.toList <+: bs) : payloadOf bs = bs := by
  rw [payloadOf, modeOf_raw h]; rfl

/-- A buffer enters its file's result through its mode and its payload alone. -/
theorem runFile_congr {bs bs' : List Byte} (hmode : modeOf bs = modeOf bs') (hpay : payloadOf bs = payloadOf bs')
    (P : Params) (rdErr : Bool) (rate : Word32) (sinkErr : Bool) :
    runFile P bs rdErr rate sinkErr = runFile P bs' rdErr rate sinkErr := by
  simp only [runFile, hmode, hpay]

/-- Settles O55: the signature's seven bytes decide the mode, and the payload begins 25 bytes after them. -/
theorem headerBytesAfterTheSignatureNeverMatter : Obligations.HeaderBytesAfterTheSignatureNeverMatter := by
  have hpre := List.prefix_append Config.headerSignature.toList
  refine ⟨fun rest => ⟨payloadOf_headered (hpre rest), modeOf_headered (hpre rest)⟩,
    fun bs h => ⟨payloadOf_raw h, modeOf_raw h⟩, fun P r r' rdErr rate sinkErr _ hdrop => ?_⟩
  have hpay : ∀ x : List Byte, payloadOf (Config.headerSignature.toList ++ x) = x.drop 25 := fun x => by
    rw [payloadOf_headered (hpre x)]; rfl
  exact runFile_congr ((modeOf_headered (hpre r)).trans (modeOf_headered (hpre r')).symm)
    ((hpay r).trans (hdrop.trans (hpay r').symm)) P rdErr rate sinkErr

theorem nibblesOf_length (bs : List Byte) : (nibblesOf bs).length = 2 * bs.length := by
  obtain ⟨-, -, hpairs⟩ := bytesCarryTwoNibblesHighFirst
  exact (hpairs bs).1

/-- The result of a file that is decoded whole: its container, or a failure of the rate or of the sink. -/
def decodedResult (P : Params) (bs : List Byte) (rate : Word32) (sinkErr : Bool) : FileResult where
  outcome := if rateLegal rate && !sinkErr then .ok else .writeFailure
  mode := modeOf bs
  stepIndex := (decodeNibbles P (Decoder.initial P) (nibblesOf (payloadOf bs))).1.stepIndex
  predicted := (decodeNibbles P (Decoder.initial P) (nibblesOf (payloadOf bs))).1.predicted
  samples := (decodeNibbles P (Decoder.initial P) (nibblesOf (payloadOf bs))).2
  container := if rateLegal rate && !sinkErr then
    some (containerImage P rate (decodeNibbles P (Decoder.initial P) (nibblesOf (payloadOf bs))).2) else none

theorem runFile_readFailure (P : Params) (bs : List Byte) (rate : Word32) (sinkErr : Bool) :
    runFile P bs true rate sinkErr = earlyResult P .readFailure .raw := rfl

section
variable {P : Params} {bs : List Byte} (rate : Word32) (sinkErr : Bool)

theorem runFile_empty (h : payloadOf bs = []) :
    runFile P bs false rate sinkErr = earlyResult P .skippedEmpty (modeOf bs) := by
  simp [runFile, h]

theorem runFile_oversize (h : payloadOf bs ≠ []) (h' : P.maxPayloadBytes < (payloadOf bs).length) :
    runFile P bs false rate sinkErr = earlyResult P .writeFailure (modeOf bs) := by
  simp [runFile, h, h']

theorem runFile_decoded (h : payloadOf bs ≠ []) (h' : (payloadOf bs).length ≤ P.maxPayloadBytes) :
    runFile P bs false rate sinkErr = decodedResult P bs rate sinkErr := by
  simp [runFile, decodedResult, outcomeOf, h, Nat.not_lt.mpr h']

end

/-- A decoded file has a container exactly when it ends with OK, and two samples per payload byte. -/
theorem decodedResult_outcome (P : Params) (bs : List Byte) (rate : Word32) (sinkErr : Bool) :
    (decodedResult P bs rate sinkErr).outcome = (if rateLegal rate = false ∨ sinkErr = true then .writeFailure else .ok) ∧
    ((decodedResult P bs rate sinkErr).container ≠ none ↔ (decodedResult P bs rate sinkErr).outcome = .ok) ∧
    ((decodedResult P bs rate sinkErr).outcome = .ok → (decodedResult P bs rate sinkErr).container =
      some (containerImage P rate (decodedResult P bs rate sinkErr).samples)) ∧
    (decodedResult P bs rate sinkErr).samples.length = 2 * (payloadOf bs).length := by
  refine ⟨?_, ?_, ?_, (decodeNibbles_length _ _ _).trans (nibblesOf_length _)⟩ <;>
    cases hrate : rateLegal rate <;> cases sinkErr <;> simp [decodedResult, hrate]

/-- Settles O56: one equation of the file procedure per check, in their order. -/
theorem outcomePriorityFollowsTheChecks : Obligations.OutcomePriorityFollowsTheChecks := by
  refine ⟨fun P bs rdErr rate sinkErr => ?_, rfl, rfl⟩
  cases rdErr with
  | true => rw [runFile_readFailure]; exact ⟨rfl, by simp [earlyResult], nofun⟩
  | false =>
    by_cases hempty : payloadOf bs = []
    · rw [runFile_empty rate sinkErr hempty]
      exact ⟨by simp [earlyResult, hempty], by simp [earlyResult], nofun⟩
    · by_cases hover : P.maxPayloadBytes < (payloadOf bs).length
      · rw [runFile_oversize rate sinkErr hempty hover]
        exact ⟨by simp [earlyResult, hempty, hover], by simp [earlyResult], nofun⟩
      · rw [runFile_decoded rate sinkErr hempty (Nat.le_of_not_lt hover)]
        obtain ⟨hout, hcont, himage, hlen⟩ := decodedResult_outcome P bs rate sinkErr
        exact ⟨by simp [hout, hempty, hover], hcont, fun hok => ⟨himage hok, hlen⟩⟩

end Sys2Proof.Machine
end

section
/-! The end of a file under quiet pins: the drain, the staging, the commit and the outcome
(42_stream_framer.md R130, 43_container_writer.md R150, 70_reset_and_hazards.md R212). -/

namespace Sys2Proof.Machine

/-- An edge of a file outside its feed loop, under quiet pins, told by the blocks it leaves. -/
theorem step_of_blocks {s t : State} (hl : s.later = []) (hq : quietDrive s.now) (hb : s.fr.busy = true)
    (hs : s.fr.stage ≠ .feed) (hdec : t.dec = { s.dec with outValid := false }) (hfr : t.fr = framerTick Config.build s)
    (hwr : t.wr = writerTick Config.build s) (hsink : t.sink = sinkTick s)
    (hout : t.input = s.input ∧ t.now = s.now ∧ t.later = s.later) : step s = .next t := by
  obtain ⟨hin, hnow, hlater⟩ := hout
  rw [step_other_quiet hl hq hb hs, ← hdec, ← hfr, ← hwr, ← hsink, ← hin, ← hnow, ← hlater]

/-- A file whose samples are all buffered, at the edge that asks the writer to finish. -/
structure Finishing (sink : List Image) (s : State) : Prop where
  later : s.later = []
  quiet : quietDrive s.now
  busy : s.fr.busy = true
  stage : s.fr.stage = .finish
  status : s.fr.status = .none
  done : s.fr.done = false
  aborted : s.fr.aborted = false
  outValid : s.dec.outValid = false
  idle : s.wr.stage = .idle
  staging : s.wr.staging = []
  unanswered : s.wr.wDone = false
  sinkKept : s.sink = sink

/-- After the drain edge: the last sample appended. -/
def drained (s : State) : State :=
  { s with dec := { s.dec with outValid := false }, fr := { s.fr with stage := .finish },
           wr := { s.wr with sampleBuf := pendingSamples s } }

/-- The image of the samples buffered. -/
def imageOf (s : State) : Image := containerImage Config.build s.wr.sampleRate s.wr.sampleBuf

/-- `k` bytes of a finishing file's image staged. -/
def stagingState (s : State) (k : Nat) : State :=
  { s with fr := { s.fr with stage := .wait }, wr := { s.wr with staging := (imageOf s).take k, stage := .staging } }

/-- The writer has answered a finishing file: with `ok` the sink has its image. -/
def answeredState (s : State) (ok : Bool) : State :=
  { s with fr := { s.fr with stage := .wait }, wr := { s.wr with wDone := true, wOk := ok },
           sink := if ok then s.sink ++ [imageOf s] else s.sink }

/-- The file has its outcome. -/
def endedState (s : State) (ok : Bool) : State :=
  { answeredState s ok with fr := raiseOutcome s.fr (outcomeOf s.fr.aborted ok), wr := { s.wr with wOk := ok } }

theorem step_drain {sink : List Image} {s : State} (h : Feeding sink s) (hs : s.fr.stage = .drain)
    (hcap : (pendingSamples s).length ≤ sampleCapacity Config.build) : step s = .next (drained s) := by
  refine step_of_blocks h.later h.quiet h.busy (by simp [hs]) rfl ?_ ?_ ?_ ⟨rfl, rfl, rfl⟩
  · rw [framerTick_drain h.busy hs]; simp [drained, h.done]
  · rw [writerTick_rest h.idle (by simp [finishPort, hs]), writerBuffer_pending hcap]; simp [drained, h.unanswered]
  · rw [sinkTick_quiet (sinkCommit_idle h.idle)]; rfl

theorem finishing_drained {sink : List Image} {s : State} (h : Feeding sink s) (hst : s.wr.staging = []) :
    Finishing sink (drained s) :=
  ⟨h.later, h.quiet, h.busy, rfl, h.status, h.done, h.aborted, rfl, h.idle, hst, h.unanswered, h.sinkKept⟩

/-- The next byte of the image after its first `k`. -/
theorem take_succ_image {s : State} {k : Nat} (hk : k < imageLength s.wr.sampleBuf.length) :
    (imageOf s).take (k + 1) =
      (imageOf s).take k ++ [imageByte Config.build s.wr.sampleRate s.wr.sampleBuf k] := by
  rw [List.take_add_one, imageOf, containerImage_getElem? hk]; rfl

theorem staged_count {s : State} {k : Nat} (hk : k ≤ imageLength s.wr.sampleBuf.length) :
    ((imageOf s).take k).length = k := by
  rw [List.length_take, imageOf, containerImage_length]; exact Nat.min_eq_left hk

section
variable {sink : List Image} {s : State} (h : Finishing sink s)
include h

/-- With nothing on `out_sample` an edge without a nibble leaves the decoder. -/
theorem finishing_dec {t : State} (ht : t.dec = s.dec) : t.dec = { s.dec with outValid := false } := by
  rw [ht, ← h.outValid]

theorem finishPort_finishing : finishPort s = true := by
  simp [finishPort, h.busy, h.stage]

theorem inFile_finishing : inFile sink s := ⟨h.busy, h.status, h.done, h.sinkKept⟩

theorem inFile_stagingState (k : Nat) : inFile sink (stagingState s k) := ⟨h.busy, h.status, h.done, h.sinkKept⟩

/-- FINISH at a legal rate stages the first byte at once. -/
theorem step_finish_legal (hr : rateLegal s.wr.sampleRate = true) : step s = .next (stagingState s 1) := by
  refine step_of_blocks h.later h.quiet h.busy (by simp [h.stage]) (finishing_dec h rfl) ?_ ?_ ?_ ⟨rfl, rfl, rfl⟩
  · rw [framerTick_finish h.busy h.stage]; simp [stagingState, h.done]
  · rw [writerTick_begin h.idle (finishPort_finishing h) hr, writerBuffer_invalid h.outValid]
    have hbyte := take_succ_image (s := s) (k := 0) (by simp [imageLength])
    simp [stagingState, stageByte, h.staging, h.unanswered, hbyte]
  · rw [sinkTick_quiet (sinkCommit_idle h.idle)]; rfl

/-- FINISH at an illegal rate answers at once (43_container_writer.md R143). -/
theorem step_finish_illegal (hr : rateLegal s.wr.sampleRate = false) : step s = .next (answeredState s false) := by
  refine step_of_blocks h.later h.quiet h.busy (by simp [h.stage]) (finishing_dec h rfl) ?_ ?_ ?_ ⟨rfl, rfl, rfl⟩
  · rw [framerTick_finish h.busy h.stage]; simp [answeredState, h.done]
  · rw [writerTick_illegal h.idle (finishPort_finishing h) hr, writerBuffer_invalid h.outValid]; rfl
  · rw [sinkTick_quiet (sinkCommit_idle h.idle)]; rfl

/-- The framer only waits while the writer stages. -/
theorem framerTick_stagingState (k : Nat) : framerTick Config.build (stagingState s k) = { s.fr with stage := .wait } := by
  rw [framerTick_wait (s := stagingState s k) h.busy rfl, if_neg (by simp [stagingState, h.unanswered])]
  simp [stagingState, h.done]

theorem step_staging {k : Nat} (hk : k < imageLength s.wr.sampleBuf.length) :
    step (stagingState s k) = .next (stagingState s (k + 1)) := by
  have hlen := staged_count (Nat.le_of_lt hk)
  have hc : sinkCommit (stagingState s k).wr = false := sinkCommit_of_lt rfl (hlen.trans_lt hk)
  refine step_of_blocks h.later h.quiet h.busy (by simp [stagingState]) (finishing_dec h rfl)
    (framerTick_stagingState h k).symm ?_ (sinkTick_quiet hc).symm ⟨rfl, rfl, rfl⟩
  rw [writerTick_stage rfl hc, writerBuffer_invalid (s := stagingState s k) h.outValid]
  simp [stagingState, stageByte, hlen, take_succ_image hk, h.unanswered]

/-- `j` staging edges in a row. -/
theorem stretch_staging : ∀ j k : Nat, k + j ≤ imageLength s.wr.sampleBuf.length →
    stretch sink j (stagingState s k) (stagingState s (k + j))
  | 0, k, _ => stretch_zero sink _
  | j + 1, k, hk => by
    have hrest := stretch_staging j (k + 1) (by omega)
    rw [show k + 1 + j = k + (j + 1) by omega] at hrest
    exact stretch_cons (inFile_stagingState h k) (step_staging h (by omega)) hrest

/-- The commit, with the whole image staged: the sink takes it or refuses it. -/
theorem step_commit : step (stagingState s (imageLength s.wr.sampleBuf.length)) =
    .next (answeredState s (!s.now.pins.sinkErr)) := by
  generalize hn : imageLength s.wr.sampleBuf.length = n
  have hlen : ((imageOf s).take n).length = n := staged_count hn.ge
  have hc : sinkCommit (stagingState s n).wr = true := (sinkCommit_staging rfl).mpr (hn.trans_le hlen.ge)
  have himage : (imageOf s).take n = imageOf s :=
    List.take_of_length_le ((containerImage_length _ _ _).trans_le hn.le)
  refine step_of_blocks h.later h.quiet h.busy (by simp [stagingState]) (finishing_dec h rfl)
    (framerTick_stagingState h n).symm ?_ ?_ ⟨rfl, rfl, rfl⟩
  · rw [writerTick_commit rfl hc, writerBuffer_invalid (s := stagingState s n) h.outValid]
    simp [answeredState, stagingState, h.staging, h.idle]
  · rw [sinkTick, hc]; simp [answeredState, stagingState, himage]

/-- From FINISH to the writer's answer. -/
theorem stretch_writing :
    stretch sink (if rateLegal s.wr.sampleRate then imageLength s.wr.sampleBuf.length + 1 else 1) s
      (answeredState s (rateLegal s.wr.sampleRate && !s.now.pins.sinkErr)) := by
  have hin := inFile_finishing h
  cases hr : rateLegal s.wr.sampleRate with
  | false => exact stretch_one hin (step_finish_illegal h hr)
  | true =>
    obtain ⟨j, hj⟩ : ∃ j, imageLength s.wr.sampleBuf.length = 1 + j :=
      ⟨43 + 2 * s.wr.sampleBuf.length, by unfold imageLength; omega⟩
    have hstage := stretch_staging h j 1 hj.ge
    have hcommit := stretch_one (inFile_stagingState h _) (step_commit h)
    rw [hj] at hcommit
    have hall := stretch_cons hin (step_finish_legal h hr) (stretch_trans hstage hcommit)
    rw [if_pos rfl, Bool.true_and, hj, show 1 + j + 1 = j + 1 + 1 by omega]
    exact hall

/-- The edge that ends the file on the writer's answer. -/
theorem step_answered (ok : Bool) : step (answeredState s ok) = .next (endedState s ok) := by
  refine step_of_blocks h.later h.quiet h.busy (by simp [answeredState]) (finishing_dec h rfl) ?_ ?_ ?_ ⟨rfl, rfl, rfl⟩
  · rw [framerTick_wait (s := answeredState s ok) h.busy rfl]; rfl
  · rw [writerTick_rest (s := answeredState s ok) h.idle (by simp [finishPort, answeredState]),
      writerBuffer_invalid (s := answeredState s ok) h.outValid]
    simp [endedState, answeredState, h.unanswered]
  · rw [sinkTick_quiet (s := answeredState s ok) (sinkCommit_idle h.idle)]; rfl

end

end Sys2Proof.Machine
end

section
/-! A whole file under quiet pins: from START to its outcome the machine does what the file procedure says
(42_stream_framer.md R134, 70_reset_and_hazards.md R212). -/

namespace Sys2Proof.Machine

/-- The bytes of a buffer from an offset on are its first bytes with those before the offset dropped. -/
theorem drop_bytes (m : Memory) (len a : Nat) : (Memory.bytes m len).drop a = bytesFrom m a (len - a) := by
  apply List.ext_getElem
  · simp [bytesFrom]
  · intro i h₁ h₂
    simp [Memory.bytes, bytesFrom]

/-- The state at a file's end is as the file procedure's result has it. -/
def leavesResult (sink : List Image) (r : FileResult) (t : State) : Prop :=
  t.fr.busy = false ∧ t.fr.done = true ∧ t.fr.status = r.outcome ∧ t.fr.mode = r.mode ∧
    t.dec.stepIndex = r.stepIndex ∧ t.dec.predicted = r.predicted ∧ t.wr.sampleBuf = r.samples ∧
    t.sink = sink ++ r.container.toList

/-- After edge `k` of `n` the file is in progress, and the sink is kept until the writer's answer. -/
def inProgress (sink : List Image) (n k : Nat) (u : State) : Prop :=
  u.fr.busy = true ∧ u.fr.status = .none ∧ u.fr.done = false ∧ (u.wr.wDone = false → u.sink = sink) ∧
    (k + 1 < n → u.sink = sink)

/-- From `s` a file runs `n` edges to its result, in progress after each of them before the last. -/
def runsTo (n : Nat) (r : FileResult) (s : State) : Prop :=
  (∃ t, Sys2Proof.core.run n s = .next t ∧ leavesResult s.sink r t) ∧
    ∀ k, 0 < k → k < n → ∃ u, Sys2Proof.core.run k s = .next u ∧ inProgress s.sink n k u

theorem inProgress_of_inFile {sink : List Image} {u : State} (h : inFile sink u) (n k : Nat) : inProgress sink n k u := by
  obtain ⟨hb, hst, hd, hsink⟩ := h
  exact ⟨hb, hst, hd, fun _ => hsink, fun _ => hsink⟩

/-- A file that ends on one of the framer's own tests. -/
theorem runsTo_of_stretch {e : Nat} {r : FileResult} {s u t : State} (hstart : step s = .next u)
    (hs : stretch s.sink e u t) (hleaves : leavesResult s.sink r t) : runsTo (1 + e) r s := by
  obtain ⟨hrun, hin⟩ := hs
  rw [Nat.add_comm]
  refine ⟨⟨t, by rw [run_succ hstart]; exact hrun, hleaves⟩, fun k h0 hk => ?_⟩
  obtain ⟨j, rfl⟩ : ∃ j, k = j + 1 := ⟨k - 1, by omega⟩
  obtain ⟨v, hv, hfile⟩ := hin j (by omega)
  exact ⟨v, by rw [run_succ hstart]; exact hv, inProgress_of_inFile hfile _ _⟩

/-- A file that ends on the writer's answer: the sink may have changed at the edge before the last. -/
theorem runsTo_of_answered {e : Nat} {r : FileResult} {s u v t : State} (hstart : step s = .next u)
    (hs : stretch s.sink e u v) (hb : v.fr.busy = true) (hst : v.fr.status = .none) (hd : v.fr.done = false)
    (hw : v.wr.wDone = true) (hend : step v = .next t) (hleaves : leavesResult s.sink r t) : runsTo (1 + e + 1) r s := by
  obtain ⟨hrun, hin⟩ := hs
  have hrun' : Sys2Proof.core.run (1 + e) s = .next v := by rw [Nat.add_comm, run_succ hstart]; exact hrun
  refine ⟨⟨t, by rw [run_add hrun' 1, run_succ hend 0]; rfl, hleaves⟩, fun k h0 hk => ?_⟩
  obtain hlast | hlt : k = 1 + e ∨ k < 1 + e := by omega
  · subst hlast
    exact ⟨v, hrun', hb, hst, hd, fun h => absurd (h.symm.trans hw) (by decide), fun h => absurd h (Nat.lt_irrefl _)⟩
  · obtain ⟨j, rfl⟩ : ∃ j, k = j + 1 := ⟨k - 1, by omega⟩
    obtain ⟨x, hx, hfile⟩ := hin j (by omega)
    exact ⟨x, by rw [run_succ hstart]; exact hx, inProgress_of_inFile hfile _ _⟩

/-- The bytes of the file a START begins: the buffer placed with it, or the one already there. -/
def fileBytes (s : State) : List Byte := Memory.bytes (s.now.place.getD s.input) s.now.pins.bufLen.toNat

/-- After the START edge of a file without a read failure. -/
def begunState (s : State) : State :=
  { dec := Decoder.initial Config.build, fr := begunFramer s.fr s.now.pins, wr := startWriter s.wr s.now.pins,
    input := s.now.place.getD s.input, sink := s.sink, now := releaseDrive s.now, later := [] }

/-- After the signature test. -/
def testedState (s : State) : State :=
  { begunState s with fr := enterPayload Config.build (begunFramer s.fr s.now.pins) (modeOf (fileBytes s)) }

theorem stretch_header_test (s : State) :
    stretch s.sink (headerEdges (fileBytes s)) (begunState s) (testedState s) := by
  obtain ⟨e, he⟩ : ∃ e, headerEdges (fileBytes s) = e + 1 :=
    ⟨headerEdges (fileBytes s) - 1, by unfold headerEdges; omega⟩
  rw [he]
  exact header_test s.sink e (begunState s) 0 rfl (quietDrive_release _) rfl rfl rfl rfl rfl rfl rfl rfl (Nat.zero_le _)
    ((Nat.zero_add _).trans he.symm)

/-- From the feed loop's first byte to the writer's answer: all samples are buffered, in order. -/
theorem stretch_to_answer {sink : List Image} {s : State} {n : Nat} {payload : List Byte} (h : Feeding sink s)
    (hs : s.fr.stage = .feed) (hlen : s.fr.len.toNat = s.fr.cursor + (n + 1))
    (hpay : payload = bytesFrom s.input s.fr.cursor (n + 1)) (hbound : n + 1 ≤ Config.build.maxPayloadBytes)
    (hnone : pendingSamples s = []) (hst : s.wr.staging = []) :
    ∃ v, stretch sink (2 * (n + 1) + (1 + (if rateLegal s.wr.sampleRate then imageLength (2 * (n + 1)) + 1 else 1))) s
        (answeredState v (rateLegal s.wr.sampleRate && !s.now.pins.sinkErr)) ∧
      Finishing sink v ∧ v.fr.mode = s.fr.mode ∧ v.wr.sampleRate = s.wr.sampleRate ∧
      v.dec.stepIndex = (decodeNibbles Config.build s.dec (nibblesOf payload)).1.stepIndex ∧
      v.dec.predicted = (decodeNibbles Config.build s.dec (nibblesOf payload)).1.predicted ∧
      v.wr.sampleBuf = (decodeNibbles Config.build s.dec (nibblesOf payload)).2 := by
  have hcount : payload.length = n + 1 := by simp [hpay, bytesFrom]
  have hcap : 2 * (n + 1) ≤ sampleCapacity Config.build := Nat.mul_le_mul_left 2 hbound
  obtain ⟨t, hloop, hfeeding, hdrain, hmode, hnow, hwr, hdec, hpending⟩ :=
    feed_loop sink n s h hs hlen (by simpa [hnone] using hcap)
  rw [← hpay] at hdec hpending
  rw [hnone, List.nil_append] at hpending
  have hsamples : (pendingSamples t).length = 2 * (n + 1) := by
    rw [hpending, decodeNibbles_length, nibblesOf_length, hcount]
  have hlast : (drained t).wr.sampleBuf.length = 2 * (n + 1) := hsamples
  have hrate : (drained t).wr.sampleRate = s.wr.sampleRate := (congrArg Writer.sampleRate hwr :)
  have hpins : (drained t).now = s.now := hnow
  have hfin := finishing_drained hfeeding (by rw [hwr]; exact hst)
  have hone := stretch_one (sink := sink) ⟨hfeeding.busy, hfeeding.status, hfeeding.done, hfeeding.sinkKept⟩
    (step_drain hfeeding hdrain (hsamples.trans_le hcap))
  have hwrite := stretch_writing hfin
  rw [hlast, hrate, hpins] at hwrite
  exact ⟨drained t, stretch_trans hloop (stretch_trans hone hwrite), hfin, hmode, hrate, by rw [← hdec]; rfl,
    by rw [← hdec]; rfl, hpending⟩

/-- A file that the framer ends before its feed loop leaves the decoder cleared and nothing buffered. -/
theorem leavesResult_early (s : State) (f : Framer) (code : Status) :
    leavesResult s.sink (earlyResult Config.build code f.mode) { begunState s with fr := raiseOutcome f code } :=
  ⟨rfl, rfl, rfl, rfl, rfl, rfl, rfl, (List.append_nil _).symm⟩

/-- A START with a read failure ends the file at its own edge. -/
theorem runsTo_readFailure {s : State} (hb : s.fr.busy = false) (hr : s.now.pins.rst = false)
    (hs : s.now.pins.start = true) (hl : s.later = []) (he : s.now.pins.rdErr = true) :
    runsTo 1 (earlyResult Config.build .readFailure .raw) s := by
  have hstart := step_start hb hr hs hl
  rw [startFramer_readFailure he] at hstart
  exact runsTo_of_stretch hstart (stretch_zero _ _) (leavesResult_early s _ _)

/-- Any other START begins the file. -/
theorem step_begunState {s : State} (hb : s.fr.busy = false) (hr : s.now.pins.rst = false)
    (hs : s.now.pins.start = true) (hl : s.later = []) (he : s.now.pins.rdErr = false) :
    step s = .next (begunState s) := by
  rw [step_start hb hr hs hl, startFramer_begins he]; rfl

/-- The payload is what lies from the mode's offset on. -/
theorem payloadOf_fileBytes (s : State) : payloadOf (fileBytes s) =
    bytesFrom (s.now.place.getD s.input) (offsetOf (modeOf (fileBytes s)))
      (s.now.pins.bufLen.toNat - offsetOf (modeOf (fileBytes s))) := drop_bytes _ _ _

theorem payloadOf_fileBytes_length (s : State) : (payloadOf (fileBytes s)).length =
    s.now.pins.bufLen.toNat - offsetOf (modeOf (fileBytes s)) := by
  rw [payloadOf_fileBytes]; simp [bytesFrom]

/-- At the feed loop's first edge, the signature test having settled the mode. -/
def feedingState (s : State) : State :=
  { begunState s with fr :=
      { begunFramer s.fr s.now.pins with mode := modeOf (fileBytes s), payloadOffset := offsetOf (modeOf (fileBytes s)),
                                         cursor := offsetOf (modeOf (fileBytes s)), stage := .feed } }

theorem testedState_feeds {s : State} {n : Nat} (hn : (payloadOf (fileBytes s)).length = n + 1)
    (hbound : n + 1 ≤ Config.build.maxPayloadBytes) : testedState s = feedingState s := by
  rw [payloadOf_fileBytes_length] at hn
  rw [testedState, enterPayload_feed (f := begunFramer s.fr s.now.pins)]
  · rfl
  · exact Nat.lt_of_sub_pos (hn ▸ Nat.succ_pos n)
  · exact hn.trans_le hbound

/-- The sink has the container, or nothing, as the writer answered. -/
theorem leavesResult_ended {sink : List Image} {v : State} {bs : List Byte} {rate : Word32} {sinkErr : Bool}
    (hfin : Finishing sink v) (hmode : v.fr.mode = modeOf bs) (hrate : v.wr.sampleRate = rate)
    (hidx : v.dec.stepIndex = (decodedResult Config.build bs rate sinkErr).stepIndex)
    (hpred : v.dec.predicted = (decodedResult Config.build bs rate sinkErr).predicted)
    (hbuf : v.wr.sampleBuf = (decodedResult Config.build bs rate sinkErr).samples) :
    leavesResult sink (decodedResult Config.build bs rate sinkErr) (endedState v (rateLegal rate && !sinkErr)) := by
  have himage : imageOf v = containerImage Config.build rate (decodedResult Config.build bs rate sinkErr).samples := by
    rw [imageOf, hrate, hbuf]
  refine ⟨rfl, rfl, ?_, hmode, hidx, hpred, hbuf, ?_⟩
  · simp only [endedState, raiseOutcome_status, hfin.aborted]; rfl
  · simp only [endedState, answeredState, himage, hfin.sinkKept, decodedResult]
    split <;> simp

/-- A file with a payload within the bound runs through the feed loop and the writer to its result. -/
theorem runsTo_decoded {s : State} (hstart : step s = .next (begunState s)) {n : Nat}
    (hn : (payloadOf (fileBytes s)).length = n + 1) (hbound : n + 1 ≤ Config.build.maxPayloadBytes) :
    runsTo (1 + (headerEdges (fileBytes s) + (2 * (n + 1) + (1 +
        (if rateLegal s.now.pins.sampleRate then imageLength (2 * (n + 1)) + 1 else 1)))) + 1)
      (decodedResult Config.build (fileBytes s) s.now.pins.sampleRate s.now.pins.sinkErr) s := by
  have hlen : s.now.pins.bufLen.toNat = offsetOf (modeOf (fileBytes s)) + (n + 1) := by
    rw [payloadOf_fileBytes_length] at hn; omega
  have hpay : payloadOf (fileBytes s) = bytesFrom (s.now.place.getD s.input) (offsetOf (modeOf (fileBytes s))) (n + 1) := by
    rw [payloadOf_fileBytes, hlen, Nat.add_sub_cancel_left]
  have hfeeding : Feeding s.sink (feedingState s) := ⟨rfl, quietDrive_release _, rfl, rfl, rfl, rfl, rfl, rfl, rfl, rfl⟩
  have htest := stretch_header_test s
  rw [testedState_feeds hn hbound] at htest
  obtain ⟨v, hrun, hfin, hmode, hrate, hidx, hpred, hbuf⟩ := stretch_to_answer hfeeding rfl hlen hpay hbound rfl rfl
  exact runsTo_of_answered hstart (stretch_trans htest hrun) hfin.busy hfin.status hfin.done rfl (step_answered hfin _)
    (leavesResult_ended hfin hmode hrate hidx hpred hbuf)

/-- A file whose payload is empty or above the bound ends with the signature test. -/
theorem runsTo_early {s : State} (hstart : step s = .next (begunState s))
    (hn : (payloadOf (fileBytes s)).length = 0 ∨ Config.build.maxPayloadBytes < (payloadOf (fileBytes s)).length) :
    runsTo (1 + headerEdges (fileBytes s))
      (runFile Config.build (fileBytes s) false s.now.pins.sampleRate s.now.pins.sinkErr) s := by
  have hlen := payloadOf_fileBytes_length s
  by_cases hempty : (payloadOf (fileBytes s)).length = 0
  · rw [runFile_empty _ _ (List.length_eq_zero_iff.mp hempty)]
    have hend := enterPayload_empty (P := Config.build) (f := begunFramer s.fr s.now.pins)
      (Nat.sub_eq_zero_iff_le.mp (hlen.symm.trans hempty))
    exact runsTo_of_stretch hstart (stretch_header_test s) (by rw [testedState, hend]; exact leavesResult_early s _ _)
  · have hover := hn.resolve_left hempty
    rw [runFile_oversize _ _ (mt List.length_eq_zero_iff.mpr hempty) hover]
    have hend := enterPayload_oversize (P := Config.build) (f := begunFramer s.fr s.now.pins)
      (Nat.lt_of_sub_ne_zero (hlen ▸ hempty)) (hover.trans_eq hlen)
    exact runsTo_of_stretch hstart (stretch_header_test s) (by rw [testedState, hend]; exact leavesResult_early s _ _)

/-- From any START, under quiet pins afterwards, the schedule runs the file to the file procedure's result. -/
theorem runsTo_runFile {s : State} (hb : s.fr.busy = false) (hr : s.now.pins.rst = false)
    (hs : s.now.pins.start = true) (hl : s.later = []) :
    runsTo (fileEdges Config.build (fileBytes s) s.now.pins.rdErr s.now.pins.sampleRate)
      (runFile Config.build (fileBytes s) s.now.pins.rdErr s.now.pins.sampleRate s.now.pins.sinkErr) s := by
  cases he : s.now.pins.rdErr with
  | true => exact runsTo_readFailure hb hr hs hl he
  | false =>
    have hstart := step_begunState hb hr hs hl he
    simp only [fileEdges, Bool.false_eq_true, if_false]
    by_cases hearly : (payloadOf (fileBytes s)).length = 0 ∨ Config.build.maxPayloadBytes < (payloadOf (fileBytes s)).length
    · rw [if_pos hearly]; exact runsTo_early hstart hearly
    · rw [if_neg hearly]
      obtain ⟨hne, hbound⟩ := not_or.mp hearly
      obtain ⟨n, hn⟩ := Nat.exists_eq_succ_of_ne_zero hne
      have hrun := runsTo_decoded hstart hn (hn.symm.trans_le (Nat.le_of_not_lt hbound))
      rw [runFile_decoded _ _ (mt List.length_eq_zero_iff.mpr hne) (Nat.le_of_not_lt hbound), hn]
      simpa only [Nat.add_assoc] using hrun

/-- Settles O57: the last edge of the schedule. -/
theorem fileRunMatchesTheFileProcedure : Obligations.FileRunMatchesTheFileProcedure := by
  intro s hb hr hs hl
  obtain ⟨hend, -⟩ := runsTo_runFile hb hr hs hl
  exact hend

/-- Settles O58: the edges before it. -/
theorem fileStaysBusyUntilItsOutcome : Obligations.FileStaysBusyUntilItsOutcome := by
  intro s hb hr hs hl
  obtain ⟨-, hbefore⟩ := runsTo_runFile hb hr hs hl
  exact hbefore

end Sys2Proof.Machine
end

section
/-! The container_writer: one append per decoded sample, FINISH at a legal and at an illegal rate, and the image's
fields (43_container_writer.md R141 to R149). -/

namespace Sys2Proof.Machine

/-- An edge that neither resets nor starts a file leaves the writer's appends in the sample buffer. -/
theorem sampleBuf_of_edgeKind {P : Params} {s t : State} (hk : EdgeKind P s t) (hr : s.now.pins.rst = false)
    (hs : startTaken s = false) : t.wr.sampleBuf = writerBuffer P s := by
  cases hk with
  | reset hrst => simp [hr] at hrst
  | start _ hb hstart => simp [startTaken, hr, hb, hstart] at hs
  | feed _ _ _ _ _ => exact writerTick_sampleBuf P s
  | quiet _ _ _ => exact writerTick_sampleBuf P s
  | direct _ _ _ _ _ => exact writerTick_sampleBuf P s

/-- The same of a whole step: a buffer placed at it is no concern of the writer. -/
theorem sampleBuf_of_stepOn {P : Params} {s t : State} (hst : stepOn P s = .next t) (hr : s.now.pins.rst = false)
    (hs : startTaken s = false) : t.wr.sampleBuf = writerBuffer P s := by
  obtain ⟨s₀, s₁, hp, hk, rfl⟩ := stepOn_cases hst
  rw [nextDrive_wr]
  obtain ⟨-, rfl⟩ | ⟨m, -, -, rfl⟩ := placeBuffer_cases hp
  · exact sampleBuf_of_edgeKind hk hr hs
  · exact (sampleBuf_of_edgeKind hk hr hs :)

/-- Settles O40: the writer's buffer after the step, with and without a sample on `out_sample`. -/
theorem writerAppendsEachSampleOnce : Obligations.WriterAppendsEachSampleOnce := by
  intro s t hst hr hstart
  have hs : startTaken s = false := by
    cases hb : s.fr.busy with
    | true => simp [startTaken, hb]
    | false => simp [startTaken, hstart hb]
  have hbuf := sampleBuf_of_stepOn (step_eq s ▸ hst) hr hs
  refine ⟨fun hv hroom => ?_, fun hv => hbuf.trans (writerBuffer_invalid hv)⟩
  have happend := hbuf.trans ((writerBuffer_valid hv).trans (appendSample_room hroom))
  refine ⟨happend, ?_⟩
  simp only [Writer.sampleCount, happend, List.length_append, List.length_singleton]

/-- Settles O49: the FINISH edge at an illegal rate and at a legal one. -/
theorem illegalRateCommitsNothing : Obligations.IllegalRateCommitsNothing := by
  intro s hb hs hw hr hpl
  have hf : finishPort s = true := by simp [finishPort, hb, hs]
  refine ⟨_, step_quiet hb (by simp [hs]) hr hpl, ?_, fun hillegal => ?_, fun hpos hbound => ?_⟩
  · rw [nextDrive_sink]; exact sinkTick_quiet (sinkCommit_idle hw)
  · rw [nextDrive_wr]
    simp only [writerTick_illegal hw hf (rateLegal_eq_false.mpr hillegal), hw, and_self]
  · rw [nextDrive_wr]
    simp only [writerTick_begin hw hf (rateLegal_eq_true.mpr ⟨hpos, hbound⟩), stageByte, List.length_append,
      List.length_singleton, and_self]

/-- Settles O51: the fields one after the other, the four chunk names spelt out as their characters. -/
theorem containerLayoutIsRiffWave : Obligations.ContainerLayoutIsRiffWave := by
  intro P rate buf
  have hriff : leBytes 4 (fourCC 0x52 0x49 0x46 0x46) = [0x52#8, 0x49#8, 0x46#8, 0x46#8] := by decide
  have hwave : leBytes 4 (fourCC 0x57 0x41 0x56 0x45) = [0x57#8, 0x41#8, 0x56#8, 0x45#8] := by decide
  have hfmt : leBytes 4 (fourCC 0x66 0x6D 0x74 0x20) = [0x66#8, 0x6D#8, 0x74#8, 0x20#8] := by decide
  have hdata : leBytes 4 (fourCC 0x64 0x61 0x74 0x61) = [0x64#8, 0x61#8, 0x74#8, 0x61#8] := by decide
  rw [containerImage_parts, riffHeader_fields, hriff, hwave, hfmt, hdata]
  rfl

/-- Settles O52: the bytes of sample `k` are those the writer stages for it, and the image ends after the last. -/
theorem samplesAreStoredLittleEndian : Obligations.SamplesAreStoredLittleEndian := by
  intro P rate buf
  refine ⟨fun k hk => ?_, containerImage_length P rate buf⟩
  obtain ⟨hlow, hhigh⟩ := imageByte_sample P rate buf k
  rw [List.getElem?_eq_getElem hk, Option.getD_some] at hlow hhigh
  have hoffset : 45 + 2 * k = 44 + (2 * k + 1) := by omega
  rw [hoffset, ← hlow, ← hhigh]
  exact ⟨containerImage_getElem? (by unfold imageLength; omega), containerImage_getElem? (by unfold imageLength; omega)⟩

/-- The `n` low bytes of a value hold it modulo `256 ^ n`. -/
theorem leValue_leBytes : ∀ n v : Nat, leValue (leBytes n v) = v % 256 ^ n
  | 0, v => (Nat.mod_one v).symm
  | n + 1, v => by rw [leBytes, leValue, leValue_leBytes n, pow_succ', Nat.mod_mul, BitVec.toNat_ofNat]

/-- A 32-bit field holds every value below `2 ^ 32` exactly. -/
theorem leValue_leBytes_four {v : Nat} (h : v < 2 ^ 32) : leValue (leBytes 4 v) = v :=
  (leValue_leBytes 4 v).trans (Nat.mod_eq_of_lt h)

/-- The two length fields and the two rate fields, cut out of the image at their offsets. -/
theorem containerImage_length_and_rate_fields (P : Params) (rate : Word32) (buf : List Sample) :
    ((containerImage P rate buf).drop 4).take 4 = leBytes 4 (36 + 2 * buf.length) ∧
    ((containerImage P rate buf).drop 40).take 4 = leBytes 4 (2 * buf.length) ∧
    ((containerImage P rate buf).drop 24).take 4 = leBytes 4 rate.toNat ∧
    ((containerImage P rate buf).drop 28).take 4 = leBytes 4 (2 * rate.toNat) := by
  rw [containerImage_parts, riffHeader_fields]
  exact ⟨rfl, rfl, rfl, rfl⟩

/-- Settles O53: each of the four values is below `2 ^ 32`; one sample more gives the first field the value `2 ^ 32`. -/
theorem lengthFieldsAreExact : Obligations.LengthFieldsAreExact := by
  refine ⟨fun P rate buf hlegal hlen => ?_, ?_, by decide⟩
  · obtain ⟨-, hrate⟩ := rateLegal_eq_true.mp hlegal
    obtain ⟨hsize, hdata, hfreq, hbytes⟩ := containerImage_length_and_rate_fields P rate buf
    rw [hsize, hdata, hfreq, hbytes]
    exact ⟨leValue_leBytes_four (by omega), leValue_leBytes_four (by omega), leValue_leBytes_four (by omega),
      leValue_leBytes_four (by omega)⟩
  · rw [leValue_leBytes]; decide

end Sys2Proof.Machine
end

section
/-! The values of the reset state, and the caller that changes the buffer during a file (70_reset_and_hazards.md R200, R204). -/

namespace Sys2Proof.Machine

/-- The machine of a build starts with the values RESET loads (10_state.md R38). -/
theorem holdsReset_resetOf (P : Params) : holdsReset P (State.resetOf P) :=
  ⟨rfl, rfl, rfl, rfl, rfl, rfl, rfl, rfl, rfl, rfl, rfl⟩

/-- Settles O17: the values of every build, of which this build's initial registers are the zeros. -/
theorem resetStateHoldsTheListedValues : Obligations.ResetStateHoldsTheListedValues := by
  have hindex : Config.build.initStepIndex = 0 := rfl
  have hpredicted : Config.build.initPredicted = 0#12 := rfl
  have hbuild : holdsReset Config.build State.reset := holdsReset_resetOf Config.build
  obtain ⟨hi, hp, hvalid, hcursor, hphase, hoffset, hmode, hbusy, hstatus, hrate, hcount⟩ := hbuild
  exact ⟨⟨hi.trans hindex, hp.trans hpredicted, hvalid, hcursor, hphase, hoffset, hmode, hbusy, hstatus, hrate, hcount,
    rfl⟩, fun P => ⟨holdsReset_resetOf P, rfl⟩⟩

/-- A buffer placed during a file, without RESET, is refused by name. -/
theorem placeBuffer_duringFile {s : State} {m : Memory} (hb : s.fr.busy = true) (hr : s.now.pins.rst = false)
    (hm : s.now.place = some m) : placeBuffer s = .error .bufferChangedDuringFile := by
  simp [placeBuffer, hm, hb, hr]

/-- Placing is refused only to a caller that does not keep the buffer. -/
theorem not_callerKeepsBuffer_of_placeBuffer_error {s : State} {r : Refusal} (h : placeBuffer s = .error r) :
    ¬ callerKeepsBuffer s := by
  intro hkeep
  obtain ⟨s₀, hp⟩ := placeBuffer_ok hkeep
  cases h.symm.trans hp

/-- Settles O33: a step is refused where placing is, and placing only to the caller that changes the buffer. -/
theorem bufferChangeDuringAFileIsRefused : Obligations.BufferChangeDuringAFileIsRefused := by
  refine ⟨fun s m hb hr hm => step_refused_iff.mpr (placeBuffer_duringFile hb hr hm), fun s r h => ?_⟩
  have hchanges := not_callerKeepsBuffer_of_placeBuffer_error (step_refused_iff.mp h)
  simp only [callerKeepsBuffer, not_or, Bool.not_eq_false, Bool.not_eq_true] at hchanges
  obtain ⟨hplace, hbusy, hrst⟩ := hchanges
  exact ⟨hbusy, hrst, hplace⟩

end Sys2Proof.Machine
end
